-- ==== Sys2Proof/Word.lean ====
section
/-!
DEFINITION. The two value types of the hardware: the unsigned 64-bit hash value (spec/00_scope.md R2, R6)
and the 8-bit message byte (R4).
-/
namespace Sys2Proof

/-- `u64`: hash state, seed, digest and command operand; arithmetic wraps modulo 2^64 (R6). -/
abbrev Word := BitVec 64

/-- One message byte, unsigned (R4, R114). -/
abbrev Byte := BitVec 8

end Sys2Proof
end

