-- ==== Sys2Proof/Config.lean ====
section
/-!
DEFINITION. What an implementation fixes (spec/00_scope.md R4), the blocks the model instantiates
(R1, spec/60_exceptions.md R243), and the two free values (spec/93_implementation_defined.md U4; log 7 and 15).
-/
namespace Sys2Proof

/-- The parameters of R4 that the spec hands to the model as arguments: the widths of an address, of a
message length and of a repetition count (D11, U9), and the cycles a core takes for an `ABSORB` (D10). -/
structure Config where
  addrW : Nat
  lenW : Nat
  cntW : Nat
  mixLatency : Nat
  deriving DecidableEq, Repr

/-- The reference configuration of R4. -/
def Config.reference : Config :=
  { addrW := 32, lenW := 32, cntW := 32, mixLatency := 1 }

/-- The parameters are positive integers (R4). -/
def Config.wf (c : Config) : Bool :=
  decide (0 < c.addrW) && decide (0 < c.lenW) && decide (0 < c.cntW) && decide (0 < c.mixLatency)

/-- FNV-1 or FNV-1a: which core, and the meaning of the bit `VAR` (R23: 0 is FNV-1, 1 is FNV-1a). -/
inductive Variant where
  | fnv1
  | fnv1a
  deriving DecidableEq, Repr

/-- The three modules of R1, one of each in the model; a module's command port decides the format of the
words that arrive on it (spec/30_encoding.md R80): formats `C1`, `C1A` and `J` of the opcode table. -/
inductive Block where
  | fnv1Core
  | fnv1aCore
  | wrapper
  deriving DecidableEq, Repr

/-- FREE VALUE (U4): what `digest` shows while `cmd_ready = 0`, in reset too. Nothing constrains it; it is
applied to the block and to the model's plain counter `State.fresh` (log 7). -/
opaque Config.digestWhileBusy : Block → Nat → Word

/-- FREE VALUE: what `mem_addr` shows while `mem_req_valid = 0`, which the spec leaves open. Nothing constrains
it; it is applied to the model's plain counter `State.fresh` (log 15). -/
opaque Config.memAddrWithoutRequest : Nat → Nat

end Sys2Proof
end

