-- ==== Sys2Proof/Syntax.lean ====
section
/-!
DEFINITION. The instruction set: one constructor per row of spec/opcode_table.json (12 rows), every bit of
the word kept, the ignored ones too (spec/30_encoding.md R85, R86; U5: "A model takes them as part of the
word and proves they do not matter").
-/
namespace Sys2Proof

/-- Core commands (C-format, R81, R83) carry the 64 bits of `DATA`; jobs (J-format, R82, R84) carry
`COUNT`, `BASE`, `LEN` as unsigned integers and `SEED` as 64 bits. -/
inductive Instr where
  /-- `FNV1.NOP` (R130); `data` is ignored. -/
  | fnv1Nop (data : Word)
  /-- `FNV1.INITD` (R131); `data` is ignored. -/
  | fnv1Initd (data : Word)
  /-- `FNV1.INITS seed` (R132). -/
  | fnv1Inits (seed : Word)
  /-- `FNV1.ABSORB b` (R133); `b = data[7:0]`, the rest is ignored. -/
  | fnv1Absorb (data : Word)
  /-- `FNV1A.NOP` (R150); `data` is ignored. -/
  | fnv1aNop (data : Word)
  /-- `FNV1A.INITD` (R151); `data` is ignored. -/
  | fnv1aInitd (data : Word)
  /-- `FNV1A.INITS seed` (R152). -/
  | fnv1aInits (seed : Word)
  /-- `FNV1A.ABSORB b` (R153); `b = data[7:0]`, the rest is ignored. -/
  | fnv1aAbsorb (data : Word)
  /-- `RUN.FNV1 n, base, len, seed` (R171). -/
  | runFnv1 (count base len : Nat) (seed : Word)
  /-- `RUN.FNV1A n, base, len, seed` (R172). -/
  | runFnv1a (count base len : Nat) (seed : Word)
  /-- `RUN.FNV1.D n, base, len` (R173); `seed` is ignored. -/
  | runFnv1D (count base len : Nat) (seed : Word)
  /-- `RUN.FNV1A.D n, base, len` (R174); `seed` is ignored. -/
  | runFnv1aD (count base len : Nat) (seed : Word)
  deriving DecidableEq, Repr

/-- The module whose port takes the instruction (R80, R87). -/
def Instr.block : Instr → Block
  | .fnv1Nop _ => .fnv1Core
  | .fnv1Initd _ => .fnv1Core
  | .fnv1Inits _ => .fnv1Core
  | .fnv1Absorb _ => .fnv1Core
  | .fnv1aNop _ => .fnv1aCore
  | .fnv1aInitd _ => .fnv1aCore
  | .fnv1aInits _ => .fnv1aCore
  | .fnv1aAbsorb _ => .fnv1aCore
  | .runFnv1 _ _ _ _ => .wrapper
  | .runFnv1a _ _ _ _ => .wrapper
  | .runFnv1D _ _ _ _ => .wrapper
  | .runFnv1aD _ _ _ _ => .wrapper

/-- The four core operations of R83. -/
inductive CoreOp where
  | nop
  | initd
  | inits
  | absorb
  deriving DecidableEq, Repr

/-- The core command of a variant. -/
def coreInstr (v : Variant) (op : CoreOp) (data : Word) : Instr :=
  match v, op with
  | .fnv1, .nop => .fnv1Nop data
  | .fnv1, .initd => .fnv1Initd data
  | .fnv1, .inits => .fnv1Inits data
  | .fnv1, .absorb => .fnv1Absorb data
  | .fnv1a, .nop => .fnv1aNop data
  | .fnv1a, .initd => .fnv1aInitd data
  | .fnv1a, .inits => .fnv1aInits data
  | .fnv1a, .absorb => .fnv1aAbsorb data

/-- The job of a variant, with the explicit or the default seed (R84). -/
def runInstr (v : Variant) (dseed : Bool) (n base len : Nat) (seed : Word) : Instr :=
  match v, dseed with
  | .fnv1, false => .runFnv1 n base len seed
  | .fnv1a, false => .runFnv1a n base len seed
  | .fnv1, true => .runFnv1D n base len seed
  | .fnv1a, true => .runFnv1aD n base len seed

end Sys2Proof
end

