-- ==== Sys2Proof/WellFormed.lean ====
section
/-!
DEFINITION. Which instructions a word can carry: every value of every field is legal (spec/30_encoding.md
R86), so the only checks are that `COUNT`, `BASE` and `LEN` fit their field widths (R82).
-/
namespace Sys2Proof

/-- The three fields of a job fit `CNT_W`, `ADDR_W` and `LEN_W` bits (R82). -/
def jobFits (cfg : Config) (count base len : Nat) : Bool :=
  decide (count < 2 ^ cfg.cntW) && decide (base < 2 ^ cfg.addrW) && decide (len < 2 ^ cfg.lenW)

def Instr.wellFormed (cfg : Config) : Instr → Bool
  | .fnv1Nop _ => true
  | .fnv1Initd _ => true
  | .fnv1Inits _ => true
  | .fnv1Absorb _ => true
  | .fnv1aNop _ => true
  | .fnv1aInitd _ => true
  | .fnv1aInits _ => true
  | .fnv1aAbsorb _ => true
  | .runFnv1 n b l _ => jobFits cfg n b l
  | .runFnv1a n b l _ => jobFits cfg n b l
  | .runFnv1D n b l _ => jobFits cfg n b l
  | .runFnv1aD n b l _ => jobFits cfg n b l

end Sys2Proof
end

