-- ==== Sys2Proof/Decode.lean ====
section
/-!
DEFINITION. The decoder and, after it, the encoder, both from the formats of spec/30_encoding.md R81 to
R84. A word is a number with bit 0 its least significant bit (spec/00_scope.md R8). The port decides the
format and the module (R80, R87). On words of the format's width decoding is total (R86); a wider number
is no word of the port and is rejected by name.
-/
namespace Sys2Proof

/-- Why a number is not decoded. R86 leaves no illegal word, so the only reason is its width. -/
inductive DecodeError where
  /-- The number has more bits than the words of this block's port. -/
  | tooWide (b : Block)
  deriving DecidableEq, Repr

/-- `w[lo+n-1 : lo]` (R8). -/
def field (w lo n : Nat) : Nat := w / 2 ^ lo % 2 ^ n

/-- `w[k]` (R8). -/
def bitAt (w k : Nat) : Bool := decide (field w k 1 = 1)

/-- Lowest bit of `OP` in the J-format: `S+L+A+C` (R82). -/
def jobOpLo (cfg : Config) : Nat := 64 + cfg.lenW + cfg.addrW + cfg.cntW

/-- Width of the words on a port (R80). -/
def wordBits (cfg : Config) : Block → Nat
  | .fnv1Core => 66
  | .fnv1aCore => 66
  | .wrapper => jobOpLo cfg + 2

/-- `OP = {bit 65, bit 64}` on the port of a fnv1_hash_core (R81, R83). -/
def decodeFnv1 (w : Nat) : Instr :=
  match bitAt w 65, bitAt w 64 with
  | false, false => .fnv1Nop (BitVec.ofNat 64 w)
  | false, true => .fnv1Initd (BitVec.ofNat 64 w)
  | true, false => .fnv1Inits (BitVec.ofNat 64 w)
  | true, true => .fnv1Absorb (BitVec.ofNat 64 w)

/-- The same map on the port of a fnv1a_hash_core (R81, R83). -/
def decodeFnv1a (w : Nat) : Instr :=
  match bitAt w 65, bitAt w 64 with
  | false, false => .fnv1aNop (BitVec.ofNat 64 w)
  | false, true => .fnv1aInitd (BitVec.ofNat 64 w)
  | true, false => .fnv1aInits (BitVec.ofNat 64 w)
  | true, true => .fnv1aAbsorb (BitVec.ofNat 64 w)

/-- `OP = {DSEED, VAR}` and the fields of R82 at the positions its general column gives (R82, R84). -/
def decodeJob (cfg : Config) (w : Nat) : Instr :=
  let count := field w (64 + cfg.lenW + cfg.addrW) cfg.cntW
  let base := field w (64 + cfg.lenW) cfg.addrW
  let len := field w 64 cfg.lenW
  let seed := BitVec.ofNat 64 w
  match bitAt w (jobOpLo cfg + 1), bitAt w (jobOpLo cfg) with
  | false, false => .runFnv1 count base len seed
  | false, true => .runFnv1a count base len seed
  | true, false => .runFnv1D count base len seed
  | true, true => .runFnv1aD count base len seed

/-- The instruction a block reads from the number on its port. -/
def decode (cfg : Config) (b : Block) (w : Nat) : Except DecodeError Instr :=
  if w < 2 ^ wordBits cfg b then
    match b with
    | .fnv1Core => .ok (decodeFnv1 w)
    | .fnv1aCore => .ok (decodeFnv1a w)
    | .wrapper => .ok (decodeJob cfg w)
  else .error (.tooWide b)

/-- `{OP, DATA}` (R81). -/
def packCommand (op : Nat) (data : Word) : Nat := op * 2 ^ 64 + data.toNat

/-- `{OP, COUNT, BASE, LEN, SEED}` (R82). -/
def packJob (cfg : Config) (op count base len : Nat) (seed : Word) : Nat :=
  op * 2 ^ jobOpLo cfg + count * 2 ^ (64 + cfg.lenW + cfg.addrW) + base * 2 ^ (64 + cfg.lenW)
    + len * 2 ^ 64 + seed.toNat

/-- The word of an instruction (R81 to R84). -/
def encode (cfg : Config) : Instr → Nat
  | .fnv1Nop data => packCommand 0 data
  | .fnv1Initd data => packCommand 1 data
  | .fnv1Inits seed => packCommand 2 seed
  | .fnv1Absorb data => packCommand 3 data
  | .fnv1aNop data => packCommand 0 data
  | .fnv1aInitd data => packCommand 1 data
  | .fnv1aInits seed => packCommand 2 seed
  | .fnv1aAbsorb data => packCommand 3 data
  | .runFnv1 n b l seed => packJob cfg 0 n b l seed
  | .runFnv1a n b l seed => packJob cfg 1 n b l seed
  | .runFnv1D n b l seed => packJob cfg 2 n b l seed
  | .runFnv1aD n b l seed => packJob cfg 3 n b l seed

/-- Which port a table row's word stands on, told by the row's width alone: 66-bit rows (72 in whole bytes)
are C-format, 162-bit rows (168) J-format (R80). The C-format word does not say whether it is meant for a
fnv1_hash_core or a fnv1a_hash_core (R81, R87): the fnv1_hash_core's port is taken (log 10). -/
def tableBlock (nbits : Nat) : Block := if nbits < 162 then .fnv1Core else .wrapper

/-- The instruction read from a word of the opcode table, in the reference configuration of that table. -/
def decodeTableWord (nbits w : Nat) : Option Instr :=
  match decode Config.reference (tableBlock nbits) w with
  | .ok i => some i
  | .error _ => none

end Sys2Proof
end

