-- ==== Sys2Proof/Machine/Datapath.lean ====
section
/-!
DEFINITION. The mixing datapath and the reference functions (spec/40_mixing_datapath.md), all modulo 2^64
(spec/00_scope.md R6).
-/
namespace Sys2Proof.Machine

/-- `FNV1_INIT` (R4). -/
def fnv1Init : Word := 0xcbf29ce484222325#64

/-- `FNV1A_INIT`: the same number under a name of its own (R4, spec/90_conflicts.md C4). -/
def fnv1aInit : Word := 0xcbf29ce484222325#64

/-- `FNV_PRIME` (R4). -/
def fnvPrime : Word := 0x100000001b3#64

/-- `INIT(VAR)`: a variant's own offset basis (spec/43_repeat_wrapper.md). -/
def initOf : Variant → Word
  | .fnv1 => fnv1Init
  | .fnv1a => fnv1aInit

/-- `shift_sum` (R110, R111): six shifted copies, by itself no multiplication by the prime (C3). -/
def shiftSum (h : Word) : Word :=
  (h <<< 1) + (h <<< 4) + (h <<< 5) + (h <<< 7) + (h <<< 8) + (h <<< 40)

/-- `mul_prime`: the shift-adder tree's function (R112). -/
def mulPrime (h : Word) : Word := h + shiftSum h

/-- The reference implementation's balanced tree of six adders in three levels (R113). -/
def adderTree (h : Word) : Word :=
  let t0 := h + (h <<< 1)
  let t1 := (h <<< 4) + (h <<< 5)
  let t2 := (h <<< 7) + (h <<< 8)
  let t3 := h <<< 40
  let u0 := t0 + t1
  let u1 := t2 + t3
  u0 + u1

/-- `zext_64` (spec/00_scope.md section 6). -/
def zext64 (b : Byte) : Word := b.setWidth 64

/-- `xor_fold` (R114). -/
def xorFold (h : Word) (b : Byte) : Word := h ^^^ zext64 b

/-- `mix1`: multiply, then XOR (R115). -/
def mix1 (h : Word) (b : Byte) : Word := xorFold (mulPrime h) b

/-- `mix1a`: XOR, then multiply (R116). -/
def mix1a (h : Word) (b : Byte) : Word := mulPrime (xorFold h b)

/-- A variant's mixing step (R115, R116). -/
def mixOf : Variant → Word → Byte → Word
  | .fnv1 => mix1
  | .fnv1a => mix1a

/-- The left fold of the spec's notation (spec/00_scope.md section 6). -/
def foldBytes (f : Word → Byte → Word) : Word → List Byte → Word
  | k, [] => k
  | k, b :: t => foldBytes f (f k b) t

/-- `iter n g k` of the spec's notation (spec/00_scope.md section 6). -/
def iter : Nat → (Word → Word) → Word → Word
  | 0, _, k => k
  | n + 1, g, k => iter n g (g k)

/-- `fnv1(s, k)` (R119). -/
def fnv1 (s : List Byte) (k : Word) : Word := foldBytes mix1 k s

/-- `fnv1a(s, k)` (R119). -/
def fnv1a (s : List Byte) (k : Word) : Word := foldBytes mix1a k s

/-- `fnv1_repeat(n, s, k)` (R120). -/
def fnv1Repeat (n : Nat) (s : List Byte) (k : Word) : Word := iter n (fun h => fnv1 s h) k

/-- `fnv1a_repeat(n, s, k)` (R120). -/
def fnv1aRepeat (n : Nat) (s : List Byte) (k : Word) : Word := iter n (fun h => fnv1a s h) k

/-- The hash function `F` of a variant (R180). -/
def hashOf : Variant → List Byte → Word → Word
  | .fnv1 => fnv1
  | .fnv1a => fnv1a

/-- The repetition function of a variant (R120). -/
def repeatOf : Variant → Nat → List Byte → Word → Word
  | .fnv1 => fnv1Repeat
  | .fnv1a => fnv1aRepeat

/-- `s^n`: a byte list concatenated with itself `n` times (spec/00_scope.md section 6). -/
def repeatBytes (s : List Byte) : Nat → List Byte
  | 0 => []
  | n + 1 => s ++ repeatBytes s n

end Sys2Proof.Machine
end

