-- ==== Sys2Proof/Machine/Operands.lean ====
section
/-!
DEFINITION. Operand assembly (spec/30_encoding.md R85) and the address of a message byte
(spec/20_memory.md R57). Nothing is sign-extended, scaled or shifted.
-/
namespace Sys2Proof.Machine

/-- The message byte of an `ABSORB`: `DATA[7:0]`, the other bits ignored (R85 item 1). -/
def absorbByte (data : Word) : Byte := data.setWidth 8

/-- The seed of a job: the explicit one, or the variant's own offset basis when `DSEED = 1` (R85 item 4). -/
def jobSeed (v : Variant) (dseed : Bool) (seed : Word) : Word := if dseed then initOf v else seed

/-- A value held in a register of `n` bits. -/
def truncTo (n v : Nat) : Nat := v % 2 ^ n

/-- `(BASE + zext(IDX)) mod 2^ADDR_W` (R57). -/
def byteAddr (cfg : Config) (base idx : Nat) : Nat := truncTo cfg.addrW (base + idx)

end Sys2Proof.Machine
end

