-- ==== Sys2Proof/Machine/State.lean ====
section
/-!
DEFINITION. The machine's state as plain data (spec/10_state.md), the events the outside world can schedule
(spec/70_reset_and_hazards.md R274), the reasons to stop (spec/60_exceptions.md R246), and the state after
reset (R29).
-/
namespace Sys2Proof.Machine

/-- Registers of one core instance. `hashval` is R20; `wait` is the position inside a multi-cycle
multiplication (R31 item 2): the number of cycles for which `cmd_ready` still stays 0 (R22). -/
structure CoreRegs where
  hashval : Word
  wait : Nat
  deriving DecidableEq, Repr

/-- `PHASE` (R23). -/
inductive Phase where
  | idle
  | check
  | byte
  | rsp
  deriving DecidableEq, Repr

/-- Registers of the wrapper: the eight of R23 and its two inner cores (R33). The unsigned registers of
parametric width (`CNT`, `BASE`, `LEN`, `IDX`) are numbers below `2^CNT_W`, `2^ADDR_W`, `2^LEN_W`. -/
structure WrapperRegs where
  phase : Phase
  var : Variant
  cnt : Nat
  base : Nat
  len : Nat
  idx : Nat
  chain : Word
  done : Bool
  c1 : CoreRegs
  c1a : CoreRegs
  deriving DecidableEq, Repr

/-- The message memory (spec/20_memory.md R50, R58): the locations that exist and may be read, with their
content, addresses strictly rising. An address that is not listed is not `MsgValid`. -/
abbrev Memory := List Host.Cell

/-- A read the memory has accepted and not yet answered (R51, R31 item 1, R271). `data` is the byte the
memory has already picked, if it has: the byte returned is the content "at some moment between the
request's acceptance and the response". -/
structure MemRequest where
  addr : Nat
  data : Option Byte
  deriving DecidableEq, Repr

/-- What can happen next at the interface (R7, R274). -/
inductive Event where
  /-- The host puts a word on a block's port and raises `valid` (R90, R91); on a port that already holds a
  word this changes the word before acceptance (R231 item 3, U6). -/
  | present (b : Block) (w : Nat)
  /-- The host drops `valid` before acceptance (R231 item 3, U6). -/
  | withdraw (b : Block)
  /-- A rising clock edge at a block with `rst = 0`; at the wrapper, one without a memory response. -/
  | edge (b : Block)
  /-- A rising clock edge at a block with `rst = 1` (R260). -/
  | reset (b : Block)
  /-- The memory picks, now, the byte it will return for the `k`-th unanswered read (R51). -/
  | sample (k : Nat)
  /-- A rising clock edge at which the memory answers the oldest unanswered read (R51). -/
  | respond
  /-- A rising clock edge at which the memory presents a response nobody asked for (R231 item 4, R267). -/
  | stray (b : Byte)
  /-- The memory port's response path is reset: unanswered reads are dropped (R271). -/
  | flush
  /-- The host writes a message location, which exists from then on (R59, R61). -/
  | writeMsg (a : Nat) (b : Byte)
  /-- The host frees a message location (R61). -/
  | freeMsg (a : Nat)
  /-- Cycles pass and nothing happens (R7: the number of cycles between events is not architectural). -/
  | pause
  deriving DecidableEq, Repr

/-- The machine: the three modules, the message memory with its unanswered reads, and the host. -/
structure State where
  /-- The parameters of R4, fixed: no step writes them (log 1). -/
  cfg : Config
  /-- The stand-alone fnv1_hash_core (R20). -/
  fnv1 : CoreRegs
  /-- The stand-alone fnv1a_hash_core (R20). -/
  fnv1a : CoreRegs
  /-- The hash_repeat_wrapper (R23, R33). -/
  wrap : WrapperRegs
  /-- The word `{cmd_op, cmd_data}` on the fnv1_hash_core's port while `cmd_valid = 1` (R22, R90). -/
  cmd1 : Option Nat
  /-- The same at the fnv1a_hash_core's port. -/
  cmd1a : Option Nat
  /-- The word `{job_op, job_count, job_base, job_len, job_seed}` while `job_valid = 1` (R25, R91). -/
  job : Option Nat
  /-- The message memory (R50). -/
  mem : Memory
  /-- Reads accepted and not yet answered, oldest first (R51, R271). -/
  inflight : List MemRequest
  /-- THE MODEL'S OWN: what the outside world does next, oldest first (log 3). -/
  schedule : List Event
  /-- THE MODEL'S OWN: counts steps, so that the free values of U4 and of `mem_addr` are fresh each time
  (log 7, 15). -/
  fresh : Nat
  deriving DecidableEq, Repr

/-- Why the machine stops with a fault. The hardware itself raises none (R230). -/
inductive Fault where
  /-- `MsgFault(addr)` (R58, R246): raised by step BYTE-read, and by the memory when it must return the byte
  of a location that is not `MsgValid`. Safe: the hardware would go on with a byte the spec does not give. -/
  | msgFault (addr : Nat)
  /-- Raised by a host write or free outside the `2^ADDR_W` locations of R50. Safe: no such location exists. -/
  | noLocation (addr : Nat)
  deriving DecidableEq, Repr

/-- Why a step is refused. -/
inductive Refusal where
  /-- An instruction without a meaning yet, by its mnemonic; raised by `exec` alone. Safe. No arm uses it. -/
  | notModelled (mnemonic : String)
  /-- The number on a block's port has more bits than the port's words (R80); raised by `runEdge`. Safe:
  such a number cannot stand on the port. -/
  | notAWord (b : Block) (w : Nat)
  deriving DecidableEq, Repr

/-- Registers of a core after reset (R29). -/
def coreReset (init : Word) : CoreRegs := { hashval := init, wait := 0 }

/-- Registers of the wrapper after reset (R29). -/
def wrapReset : WrapperRegs :=
  { phase := .idle, var := .fnv1, cnt := 0, base := 0, len := 0, idx := 0,
    chain := 0xcbf29ce484222325#64, done := false,
    c1 := coreReset fnv1Init, c1a := coreReset fnv1aInit }

/-- The machine right after the reset event of all three modules (R29, R260), in the reference
configuration, with nothing presented, nothing in memory and nothing scheduled (log 1, 3, 5, 6). -/
def State.reset : State :=
  { cfg := Config.reference, fnv1 := coreReset fnv1Init, fnv1a := coreReset fnv1aInit,
    wrap := wrapReset, cmd1 := none, cmd1a := none, job := none, mem := [], inflight := [],
    schedule := [], fresh := 0 }

end Sys2Proof.Machine
end

