-- ==== Sys2Proof/Machine/Ops.lean ====
section
/-!
DEFINITION. The named operations over memory and registers: the message memory, the accessors and updates
of State, the effect of a core command on a core, the acceptance of a command and of a job
(spec/30_encoding.md R90, R91), and the reset event (spec/70_reset_and_hazards.md R260). There is no
operation for taking an exception or returning from one: the hardware has neither (spec/60_exceptions.md
R230, R234, R235); the reset event is the only way to abandon work in progress (R235).
-/
namespace Sys2Proof.Machine

/-! ## Message memory (R50, R58) -/

/-- `Msg(a)` where `MsgValid(a)`, else `none`. -/
def Memory.read : Memory → Nat → Option Byte
  | [], _ => none
  | (k, c) :: m, a => if k = a then some c else Memory.read m a

/-- `MsgValid(a)` (R50, R58). -/
def Memory.valid (m : Memory) (a : Nat) : Bool := (Memory.read m a).isSome

/-- The host writes byte `b` at `a`; addresses stay strictly rising. -/
def Memory.write : Memory → Nat → Byte → Memory
  | [], a, b => [(a, b)]
  | (k, c) :: m, a, b =>
    if a < k then (a, b) :: (k, c) :: m
    else if a = k then (a, b) :: m
    else (k, c) :: Memory.write m a b

/-- The host frees location `a`. -/
def Memory.free : Memory → Nat → Memory
  | [], _ => []
  | (k, c) :: m, a => if k = a then Memory.free m a else (k, c) :: Memory.free m a

/-- Every address of the list is above `lo`. -/
def Memory.above (lo : Nat) : Memory → Bool
  | [] => true
  | (k, _) :: m => decide (lo < k) && Memory.above lo m

/-- The canonical form: addresses strictly rising. An unlisted address reads as no value, so no entry can
equal what an unlisted address reads as. -/
def Memory.wf : Memory → Bool
  | [] => true
  | (k, _) :: m => Memory.above k m && Memory.wf m

/-- Every listed address is one of the `2^ADDR_W` locations (R50). -/
def Memory.within (n : Nat) : Memory → Bool
  | [] => true
  | (k, _) :: m => decide (k < 2 ^ n) && Memory.within n m

/-! ## Accessors and updates of State -/

/-- The word on a block's port while `valid = 1`. -/
def State.port (s : State) : Block → Option Nat
  | .fnv1Core => s.cmd1
  | .fnv1aCore => s.cmd1a
  | .wrapper => s.job

/-- The host drives a block's port. -/
def State.setPort (s : State) (b : Block) (p : Option Nat) : State :=
  match b with
  | .fnv1Core => { s with cmd1 := p }
  | .fnv1aCore => { s with cmd1a := p }
  | .wrapper => { s with job := p }

def State.setFnv1 (s : State) (c : CoreRegs) : State := { s with fnv1 := c }

def State.setFnv1a (s : State) (c : CoreRegs) : State := { s with fnv1a := c }

def State.setWrap (s : State) (w : WrapperRegs) : State := { s with wrap := w }

def State.setMem (s : State) (m : Memory) : State := { s with mem := m }

def State.setInflight (s : State) (q : List MemRequest) : State := { s with inflight := q }

/-- One event is taken from the schedule and the model's counter advances (log 3, 7). -/
def State.begin (s : State) : State := { s with schedule := s.schedule.tail, fresh := s.fresh + 1 }

/-- The wrapper's core of a variant: `c1` or `c1a` (R33). -/
def WrapperRegs.core (w : WrapperRegs) : Variant → CoreRegs
  | .fnv1 => w.c1
  | .fnv1a => w.c1a

def WrapperRegs.setCore (w : WrapperRegs) (v : Variant) (c : CoreRegs) : WrapperRegs :=
  match v with
  | .fnv1 => { w with c1 := c }
  | .fnv1a => { w with c1a := c }

/-- The core the job uses, selected by `VAR` (spec/43_repeat_wrapper.md, before section 1). -/
def WrapperRegs.selected (w : WrapperRegs) : CoreRegs := w.core w.var

/-! ## What a command does to a core (spec/41_fnv1_core.md, spec/42_fnv1a_core.md) -/

/-- `NOP` (R130, R150). -/
def coreNop (c : CoreRegs) : CoreRegs := c

/-- `INITD` (R131, R151): the variant's own offset basis. -/
def coreInitd (v : Variant) (c : CoreRegs) : CoreRegs := { c with hashval := initOf v }

/-- `INITS` (R132, R152). -/
def coreInits (seed : Word) (c : CoreRegs) : CoreRegs := { c with hashval := seed }

/-- `ABSORB` (R133, R153): one mixing step; `cmd_ready` is 0 for the `MIX_LATENCY - 1` cycles that follow
(R22; none in the reference configuration; log 8). -/
def coreAbsorb (cfg : Config) (v : Variant) (data : Word) (c : CoreRegs) : CoreRegs :=
  { hashval := mixOf v c.hashval (absorbByte data), wait := cfg.mixLatency - 1 }

/-- A cycle passes in a multi-cycle multiplication (R31 item 2). -/
def coreWait (c : CoreRegs) : CoreRegs := { c with wait := c.wait - 1 }

/-! ## Acceptance (R90, R91) -/

/-- A command at the fnv1_hash_core's port: accepted when `cmd_ready = 1`, and then it leaves the port;
"While `cmd_valid = 1` and `cmd_ready = 0` nothing happens" (R90). -/
def acceptFnv1 (f : CoreRegs → CoreRegs) (s : State) : Host.Outcome State Fault Refusal :=
  if s.fnv1.wait = 0 then .next ((s.setFnv1 (f s.fnv1)).setPort .fnv1Core none) else .next s

/-- The same at the fnv1a_hash_core's port (R90). -/
def acceptFnv1a (f : CoreRegs → CoreRegs) (s : State) : Host.Outcome State Fault Refusal :=
  if s.fnv1a.wait = 0 then .next ((s.setFnv1a (f s.fnv1a)).setPort .fnv1aCore none) else .next s

/-- The wrapper's registers after a START event (R171 to R174); a register keeps as many bits as it has. -/
def startRegs (cfg : Config) (v : Variant) (seed : Word) (count base len : Nat) (w : WrapperRegs) :
    WrapperRegs :=
  { w with
    phase := .check, var := v, cnt := truncTo cfg.cntW count, base := truncTo cfg.addrW base,
    len := truncTo cfg.lenW len, idx := 0, chain := seed, done := false }

/-- A job at the wrapper's port: accepted in `PHASE = IDLE`, and then it leaves the port; otherwise nothing
is accepted and it waits (R91). -/
def acceptJob (v : Variant) (seed : Word) (count base len : Nat) (s : State) :
    Host.Outcome State Fault Refusal :=
  if s.wrap.phase = .idle then
    .next ((s.setWrap (startRegs s.cfg v seed count base len s.wrap)).setPort .wrapper none)
  else .next s

/-! ## Reset (R260) -/

/-- The reset event of one block: every register of the block takes its value of R29. Words on the ports
and reads in flight are outside the block and stay (R261, R271). -/
def resetBlock (b : Block) (s : State) : State :=
  match b with
  | .fnv1Core => s.setFnv1 (coreReset fnv1Init)
  | .fnv1aCore => s.setFnv1a (coreReset fnv1aInit)
  | .wrapper => s.setWrap wrapReset

end Sys2Proof.Machine
end

