-- ==== Sys2Proof/Machine/Fnv1Core.lean ====
section
/-!
DEFINITION. The four commands of the fnv1_hash_core (spec/41_fnv1_core.md).
-/
namespace Sys2Proof.Machine

/-- `FNV1.NOP` (R130): no state changes; `data` is ignored. -/
def execFnv1Nop (_data : Word) (s : State) : Host.Outcome State Fault Refusal :=
  acceptFnv1 coreNop s

/-- `FNV1.INITD` (R131): `hashval <- FNV1_INIT`; `data` is ignored. -/
def execFnv1Initd (_data : Word) (s : State) : Host.Outcome State Fault Refusal :=
  acceptFnv1 (coreInitd .fnv1) s

/-- `FNV1.INITS seed` (R132): `hashval <- DATA`. -/
def execFnv1Inits (seed : Word) (s : State) : Host.Outcome State Fault Refusal :=
  acceptFnv1 (coreInits seed) s

/-- `FNV1.ABSORB b` (R133): `hashval <- mix1(hashval, DATA[7:0])`. -/
def execFnv1Absorb (data : Word) (s : State) : Host.Outcome State Fault Refusal :=
  acceptFnv1 (coreAbsorb s.cfg .fnv1 data) s

end Sys2Proof.Machine
end

