-- ==== Sys2Proof/Machine/Fnv1aCore.lean ====
section
/-!
DEFINITION. The four commands of the fnv1a_hash_core (spec/42_fnv1a_core.md).
-/
namespace Sys2Proof.Machine

/-- `FNV1A.NOP` (R150): no state changes; `data` is ignored. -/
def execFnv1aNop (_data : Word) (s : State) : Host.Outcome State Fault Refusal :=
  acceptFnv1a coreNop s

/-- `FNV1A.INITD` (R151): `hashval <- FNV1A_INIT`; `data` is ignored. -/
def execFnv1aInitd (_data : Word) (s : State) : Host.Outcome State Fault Refusal :=
  acceptFnv1a (coreInitd .fnv1a) s

/-- `FNV1A.INITS seed` (R152): `hashval <- DATA`. -/
def execFnv1aInits (seed : Word) (s : State) : Host.Outcome State Fault Refusal :=
  acceptFnv1a (coreInits seed) s

/-- `FNV1A.ABSORB b` (R153): `hashval <- mix1a(hashval, DATA[7:0])`. -/
def execFnv1aAbsorb (data : Word) (s : State) : Host.Outcome State Fault Refusal :=
  acceptFnv1a (coreAbsorb s.cfg .fnv1a data) s

end Sys2Proof.Machine
end

