-- ==== Sys2Proof/Machine/Jobs.lean ====
section
/-!
DEFINITION. The four jobs of the hash_repeat_wrapper: their START events (spec/43_repeat_wrapper.md R171 to
R174). The passes that follow are the sequencer's steps (Sys2Proof/Machine/Sequencer.lean).
-/
namespace Sys2Proof.Machine

/-- `RUN.FNV1 n, base, len, seed` (R171): FNV-1 from the explicit seed. -/
def execRunFnv1 (count base len : Nat) (seed : Word) (s : State) : Host.Outcome State Fault Refusal :=
  acceptJob .fnv1 (jobSeed .fnv1 false seed) count base len s

/-- `RUN.FNV1A n, base, len, seed` (R172): FNV-1a from the explicit seed. -/
def execRunFnv1a (count base len : Nat) (seed : Word) (s : State) : Host.Outcome State Fault Refusal :=
  acceptJob .fnv1a (jobSeed .fnv1a false seed) count base len s

/-- `RUN.FNV1.D n, base, len` (R173): FNV-1 from `FNV1_INIT`; `seed` is ignored. -/
def execRunFnv1D (count base len : Nat) (seed : Word) (s : State) : Host.Outcome State Fault Refusal :=
  acceptJob .fnv1 (jobSeed .fnv1 true seed) count base len s

/-- `RUN.FNV1A.D n, base, len` (R174): FNV-1a from `FNV1A_INIT`, its own constant; `seed` is ignored. -/
def execRunFnv1aD (count base len : Nat) (seed : Word) (s : State) : Host.Outcome State Fault Refusal :=
  acceptJob .fnv1a (jobSeed .fnv1a true seed) count base len s

end Sys2Proof.Machine
end

