-- ==== Sys2Proof/Machine/Dispatch.lean ====
section
/-!
DEFINITION. One arm per row of spec/opcode_table.json: the effect of the instruction presented on its port at
a clock edge with `rst = 0` (spec/30_encoding.md R90, R91).
-/
namespace Sys2Proof.Machine

def exec (i : Instr) (s : State) : Host.Outcome State Fault Refusal :=
  match i with
  -- fnv1_hash_core
  | .fnv1Nop data => Sys2Proof.Machine.execFnv1Nop data s
  | .fnv1Initd data => Sys2Proof.Machine.execFnv1Initd data s
  | .fnv1Inits seed => Sys2Proof.Machine.execFnv1Inits seed s
  | .fnv1Absorb data => Sys2Proof.Machine.execFnv1Absorb data s
  -- fnv1a_hash_core
  | .fnv1aNop data => Sys2Proof.Machine.execFnv1aNop data s
  | .fnv1aInitd data => Sys2Proof.Machine.execFnv1aInitd data s
  | .fnv1aInits seed => Sys2Proof.Machine.execFnv1aInits seed s
  | .fnv1aAbsorb data => Sys2Proof.Machine.execFnv1aAbsorb data s
  -- hash_repeat_wrapper
  | .runFnv1 count base len seed => Sys2Proof.Machine.execRunFnv1 count base len seed s
  | .runFnv1a count base len seed => Sys2Proof.Machine.execRunFnv1a count base len seed s
  | .runFnv1D count base len seed => Sys2Proof.Machine.execRunFnv1D count base len seed s
  | .runFnv1aD count base len seed => Sys2Proof.Machine.execRunFnv1aD count base len seed s

end Sys2Proof.Machine
end

