-- ==== Sys2Proof/Machine/Flags.lean ====
section
/-!
DEFINITION. The hardware has no arithmetic flag (spec/10_state.md R27). Its status signals are functions of
State and of the sampled `rst`: the outputs of R22 and R25, with their values during reset
(spec/70_reset_and_hazards.md R261).
-/
namespace Sys2Proof.Machine

/-- `cmd_ready` of a core (R22, R261). -/
def cmdReady (rst : Bool) (c : CoreRegs) : Bool := !rst && decide (c.wait = 0)

/-- `digest` of the core on port `b`: `hashval` while `cmd_ready = 1`, unspecified while `cmd_ready = 0` in a
multi-cycle multiplication (R22, U4). DESIGN CHOICE (log 7): in a cycle with `rst = 1`, where `cmd_ready = 0`
(R261) and R22 promises nothing, it is the free value at every `MIX_LATENCY`. -/
def digestOf (rst : Bool) (b : Block) (fresh : Nat) (c : CoreRegs) : Word :=
  if cmdReady rst c then c.hashval else Config.digestWhileBusy b fresh

def State.cmdReady1 (s : State) (rst : Bool) : Bool := cmdReady rst s.fnv1

def State.cmdReady1a (s : State) (rst : Bool) : Bool := cmdReady rst s.fnv1a

def State.digest1 (s : State) (rst : Bool) : Word := digestOf rst .fnv1Core s.fresh s.fnv1

def State.digest1a (s : State) (rst : Bool) : Word := digestOf rst .fnv1aCore s.fresh s.fnv1a

/-- `busy = (PHASE ≠ IDLE)` (R25). -/
def State.busy (s : State) : Bool := decide (s.wrap.phase ≠ .idle)

/-- `job_ready = (PHASE = IDLE) and rst = 0` (R25). -/
def State.jobReady (s : State) (rst : Bool) : Bool := decide (s.wrap.phase = .idle) && !rst

/-- `done = DONE` (R25). -/
def State.doneOut (s : State) : Bool := s.wrap.done

/-- `result = CHAIN` in every cycle (R25). -/
def State.result (s : State) : Word := s.wrap.chain

/-- `mem_req_valid`: the wrapper is about to read message byte `IDX` (R51, R177) and `rst = 0` (R261). -/
def State.memReqValid (s : State) (rst : Bool) : Bool :=
  !rst && decide (s.wrap.phase = .byte) && decide (s.wrap.idx ≠ s.wrap.len)
    && decide (s.wrap.selected.wait = 0)

/-- The sum of the address adder (R57): the address of the read that step BYTE-read issues (R177), and of the read
awaited in `PHASE = RSP` (R31 item 1). -/
def State.memAddr (s : State) : Nat := byteAddr s.cfg s.wrap.base s.wrap.idx

/-- The port `mem_addr`: the address of the request while `mem_req_valid = 1` (R51). DESIGN CHOICE (log 15): in every
other cycle, of which the spec says nothing (R28: "only as `mem_addr` during reads"), a free value of `ADDR_W`
bits. -/
def State.memAddrPort (s : State) (rst : Bool) : Nat :=
  if s.memReqValid rst then s.memAddr else truncTo s.cfg.addrW (Config.memAddrWithoutRequest s.fresh)

/-- The block accepts the word on its port at an edge with `rst = 0` (R90, R91). -/
def State.ready (s : State) : Block → Bool
  | .fnv1Core => s.cmdReady1 false
  | .fnv1aCore => s.cmdReady1a false
  | .wrapper => s.jobReady false

end Sys2Proof.Machine
end

