-- ==== Sys2Proof/Machine/Sequencer.lean ====
section
/-!
DEFINITION. The sequencer's four steps (spec/43_repeat_wrapper.md R175 to R178) and what an edge at a busy
wrapper does (R179).
-/
namespace Sys2Proof.Machine

/-- Step CHECK (R175): the end of the job when `CNT = 0`, else the pass is seeded with `CHAIN`. -/
def stepCheck (w : WrapperRegs) : WrapperRegs :=
  if w.cnt = 0 then { w with done := true, phase := .idle }
  else { w.setCore w.var (coreInits w.chain w.selected) with idx := 0, phase := .byte }

/-- Step BYTE at the end of a pass (R176). `CNT - 1` in `CNT_W` bits. -/
def stepEndOfPass (cfg : Config) (w : WrapperRegs) : WrapperRegs :=
  { w with
    chain := w.selected.hashval, cnt := truncTo cfg.cntW (w.cnt + 2 ^ cfg.cntW - 1), phase := .check }

/-- Step BYTE-read (R177), the hardware's only load: the request is accepted, or its address is not
`MsgValid` and the run ends in `MsgFault(addr)` (R58). -/
def stepByteRead (s : State) : Host.Outcome State Fault Refusal :=
  if Memory.valid s.mem s.memAddr then
    .next ((s.setWrap { s.wrap with phase := .rsp }).setInflight
      (s.inflight ++ [{ addr := s.memAddr, data := none }]))
  else .fault (.msgFault s.memAddr)

/-- Step RSP (R178): the byte is zero-extended and absorbed. `IDX + 1` in `LEN_W` bits. -/
def stepRsp (cfg : Config) (b : Byte) (w : WrapperRegs) : WrapperRegs :=
  { w.setCore w.var (coreAbsorb cfg w.var (zext64 b) w.selected) with
    idx := truncTo cfg.lenW (w.idx + 1), phase := .byte }

/-- An edge at a wrapper with `PHASE ≠ IDLE` and no memory response: the one enabled step of R179. While
the selected core's `cmd_ready` is 0 the sequencer waits for it (log 8); in `PHASE = RSP` it waits for the
memory. -/
def sequencerEdge (s : State) : Host.Outcome State Fault Refusal :=
  if s.wrap.selected.wait = 0 then
    match s.wrap.phase with
    | .idle => .next s
    | .check => .next (s.setWrap (stepCheck s.wrap))
    | .byte =>
      if s.wrap.idx = s.wrap.len then .next (s.setWrap (stepEndOfPass s.cfg s.wrap)) else stepByteRead s
    | .rsp => .next s
  else .next (s.setWrap (s.wrap.setCore s.wrap.var (coreWait s.wrap.selected)))

/-- A response at the wrapper's memory port (R51): taken in `PHASE = RSP`, ignored in every other phase. -/
def takeResponse (b : Byte) (s : State) : State :=
  if s.wrap.phase = .rsp then s.setWrap (stepRsp s.cfg b s.wrap) else s

end Sys2Proof.Machine
end

