-- ==== Sys2Proof/Machine/Events.lean ====
section
/-!
DEFINITION. What each event does (spec/00_scope.md R7, spec/70_reset_and_hazards.md R274), which event comes
next, and the presentation of a word on a port.
-/
namespace Sys2Proof.Machine

/-- An edge with `rst = 0` at a ready block with word `w` on its port: the word is decoded and executed
(R90, R91). -/
def runWord (b : Block) (w : Nat) (s : State) : Host.Outcome State Fault Refusal :=
  match decode s.cfg b w with
  | .ok i => exec i s
  | .error _ => .refused (.notAWord b w)

/-- A block that is not ready spends the edge on its own work: a core on its multi-cycle multiplication
(R31 item 2), the wrapper on its job (R179). The word on the port waits (R90, R91). -/
def busyEdge (b : Block) (s : State) : Host.Outcome State Fault Refusal :=
  match b with
  | .fnv1Core => .next (s.setFnv1 (coreWait s.fnv1))
  | .fnv1aCore => .next (s.setFnv1a (coreWait s.fnv1a))
  | .wrapper => sequencerEdge s

/-- A rising clock edge with `rst = 0` at a block. With `valid = 0` at a ready block no event happens (R90). -/
def runEdge (b : Block) (s : State) : Host.Outcome State Fault Refusal :=
  if s.ready b then
    match s.port b with
    | some w => runWord b w s
    | none => .next s
  else busyEdge b s

/-- The byte the memory returns for a read it has accepted (R51). -/
def requestByte (m : Memory) (r : MemRequest) : Option Byte :=
  match r.data with
  | some b => some b
  | none => Memory.read m r.addr

/-- The memory answers the oldest unanswered read (R51). Out of `PHASE = RSP` the response is ignored,
whatever it holds (R51, R271); in `PHASE = RSP` it is the byte of the location, and a location that is not
`MsgValid` has none (R58). -/
def respondOldest (s : State) : Host.Outcome State Fault Refusal :=
  match s.inflight with
  | [] => .next s
  | r :: q =>
    if s.wrap.phase = .rsp then
      match requestByte s.mem r with
      | some b => .next (takeResponse b (s.setInflight q))
      | none => .fault (.msgFault r.addr)
    else .next (s.setInflight q)

/-- The memory picks the byte of one unanswered read at this moment (R51). -/
def samplePending (m : Memory) (r : MemRequest) : MemRequest := { r with data := Memory.read m r.addr }

/-- One event (R7). -/
def runEvent (e : Event) (s : State) : Host.Outcome State Fault Refusal :=
  match e with
  | .present b w => .next (s.setPort b (some w))
  | .withdraw b => .next (s.setPort b none)
  | .edge b => runEdge b s
  | .reset b => .next (resetBlock b s)
  | .sample k => .next (s.setInflight (s.inflight.modify k (samplePending s.mem)))
  | .respond => respondOldest s
  | .stray b => .next (takeResponse b s)
  | .flush => .next (s.setInflight [])
  | .writeMsg a b => if a < 2 ^ s.cfg.addrW then .next (s.setMem (Memory.write s.mem a b)) else .fault (.noLocation a)
  | .freeMsg a => if a < 2 ^ s.cfg.addrW then .next (s.setMem (Memory.free s.mem a)) else .fault (.noLocation a)
  | .pause => .next s

/-- A stand-alone core has something to do: a word on its port, or a multi-cycle multiplication. -/
def coreActive (c : CoreRegs) (p : Option Nat) : Bool := p.isSome || decide (c.wait ≠ 0)

/-- DESIGN CHOICE (log 4): the order the model takes when the outside world has scheduled nothing. Every pending
command is accepted, the memory answers every read it has accepted, in every `PHASE`, before the wrapper's next edge,
and the job runs, as D26 asks of a fair platform; else nothing happens. When a read left in flight by a reset is
answered is open (R271): here at once, so before a next job; every other time is a schedule. -/
def defaultEvent (s : State) : Event :=
  if coreActive s.fnv1 s.cmd1 then .edge .fnv1Core
  else if coreActive s.fnv1a s.cmd1a then .edge .fnv1aCore
  else if s.inflight ≠ [] then .respond
  else if s.wrap.phase = .rsp then .pause
  else if s.wrap.phase ≠ .idle ∨ s.job.isSome then .edge .wrapper
  else .pause

/-- The next event: the first one scheduled, else the default (log 3, 4). -/
def nextEvent (s : State) : Event :=
  match s.schedule with
  | e :: _ => e
  | [] => defaultEvent s

/-- The next event happens. -/
def runNext (s : State) : Host.Outcome State Fault Refusal := runEvent (nextEvent s) s.begin

/-- A core or wrapper that accepts the next word: no multi-cycle multiplication runs, no job runs. -/
def makeReady (b : Block) (s : State) : State :=
  match b with
  | .fnv1Core => s.setFnv1 { s.fnv1 with wait := 0 }
  | .fnv1aCore => s.setFnv1a { s.fnv1a with wait := 0 }
  | .wrapper => s.setWrap { s.wrap with phase := .idle }

/-- Word `w` on the port of block `b`, which is ready and has the next clock edge (log 9). -/
def presentNext (b : Block) (w : Nat) (s : State) : State :=
  { (makeReady b s).setPort b (some w) with schedule := .edge b :: s.schedule }

end Sys2Proof.Machine
end

