-- ==== Sys2Proof/Machine/Step.lean ====
section
/-!
DEFINITION. One step of the machine: one event (spec/00_scope.md R7).
-/
namespace Sys2Proof.Machine

/-- One atomic event of R7. -/
def step (s : State) : Host.Outcome State Fault Refusal := runNext s

/-- The word on the port its width tells (Sys2Proof/Decode.lean, `tableBlock`), to be accepted by the very
next step (log 9, 10). -/
def State.withFetchWord (s : State) (nbits w : Nat) : State := presentNext (tableBlock nbits) w s

end Sys2Proof.Machine
end

