-- ==== Sys2Proof/Machine/Assembler.lean ====
section
/-!
DEFINITION. The assembler notation and the pseudo-instructions of spec/30_encoding.md R88 and R89: one line
of text to the commands it stands for. Notation only (D22): no step of the machine depends on this file.
A line is a list of characters. Where R88 and R89 leave the notation open, the choices are those of log 11: only
ASCII characters have bytes, and a `;` outside quotes begins a comment.
-/
namespace Sys2Proof.Machine

inductive AsmError where
  /-- The first word of the line is no mnemonic of R88 or R89. -/
  | unknownMnemonic
  /-- The operands do not have the mnemonic's form. -/
  | badOperands
  /-- A number or a character does not fit its field. -/
  | outOfRange
  deriving DecidableEq, Repr

/-- The mnemonics of R88 and the pseudo-instructions of R89, each with its variant. -/
inductive AsmOp where
  | core (v : Variant) (op : CoreOp)
  | run (v : Variant) (dseed : Bool)
  | hash (v : Variant)
  | hashs (v : Variant)
  | cont (v : Variant)
  | once (v : Variant) (dseed : Bool)
  deriving DecidableEq, Repr

/-- `X.cont`: one `ABSORB` per byte, in order, nothing appended (R89). -/
def contBytes (v : Variant) (text : List Byte) : List Instr :=
  text.map (fun b => coreInstr v .absorb (b.setWidth 64))

/-- `X.hash`: `X.initd`, then the `absorb` sequence (R89). -/
def hashBytes (v : Variant) (text : List Byte) : List Instr :=
  coreInstr v .initd 0 :: contBytes v text

/-- `X.hashs seed`: `X.inits seed`, then the `absorb` sequence (R89). -/
def hashsBytes (v : Variant) (seed : Word) (text : List Byte) : List Instr :=
  coreInstr v .inits seed :: contBytes v text

/-- `hash.X` and `hash.X.d`: the job with count 1 (R89). -/
def onceJob (v : Variant) (dseed : Bool) (base len : Nat) (seed : Word) : Instr :=
  runInstr v dseed 1 base len seed

/-! ## Reading a line -/

def asmMnemonics : List (String × AsmOp) :=
  [("fnv1.nop", .core .fnv1 .nop), ("fnv1.initd", .core .fnv1 .initd),
   ("fnv1.inits", .core .fnv1 .inits), ("fnv1.absorb", .core .fnv1 .absorb),
   ("fnv1a.nop", .core .fnv1a .nop), ("fnv1a.initd", .core .fnv1a .initd),
   ("fnv1a.inits", .core .fnv1a .inits), ("fnv1a.absorb", .core .fnv1a .absorb)]
  ++ [("run.fnv1", .run .fnv1 false), ("run.fnv1a", .run .fnv1a false),
   ("run.fnv1.d", .run .fnv1 true), ("run.fnv1a.d", .run .fnv1a true)]
  ++ [("fnv1.hash", .hash .fnv1), ("fnv1a.hash", .hash .fnv1a), ("fnv1.hashs", .hashs .fnv1),
   ("fnv1a.hashs", .hashs .fnv1a), ("fnv1.cont", .cont .fnv1), ("fnv1a.cont", .cont .fnv1a),
   ("hash.fnv1", .once .fnv1 false), ("hash.fnv1a", .once .fnv1a false),
   ("hash.fnv1.d", .once .fnv1 true), ("hash.fnv1a.d", .once .fnv1a true)]

def skipBlanks : List Char → List Char
  | [] => []
  | c :: t => if c = ' ' then skipBlanks t else c :: t

/-- The mnemonic, in lower case ("mnemonics are case-insensitive", R88), and the rest of the line. -/
def takeMnemonic : List Char → List Char × List Char
  | [] => ([], [])
  | c :: t =>
    if c = ' ' then ([], t) else ((c.toLower :: (takeMnemonic t).1), (takeMnemonic t).2)

/-- The value of a digit in the given base. DESIGN CHOICE (log 11): a hexadecimal digit may be a capital letter. -/
def digitValue (base : Nat) (c : Char) : Option Nat :=
  let l := c.toLower
  let v := if '0' ≤ l ∧ l ≤ '9' then l.toNat - 48 else if 'a' ≤ l ∧ l ≤ 'f' then l.toNat - 87 else 16
  if v < base then some v else none

/-- The longest run of digits, added to `acc`; `seen` says whether the last character was a digit. Between two digits
of a hexadecimal number an underscore is only a visual separator (spec/00_scope.md R8). DESIGN CHOICE (log 11): an
underscore anywhere else ends or spoils the number. -/
def takeDigits (base : Nat) (seen : Bool) (acc : Nat) : List Char → Option (Nat × List Char)
  | [] => if seen then some (acc, []) else none
  | c :: t =>
    match digitValue base c with
    | some d => takeDigits base true (acc * base + d) t
    | none =>
      if seen then (if base = 16 ∧ c = '_' then takeDigits base false acc t else some (acc, c :: t)) else none

/-- A number, decimal or `0x` hexadecimal (R88); the `x` is a small letter, as R8 and R88 write it (log 11). -/
def takeNumber (l : List Char) : Option (Nat × List Char) :=
  match skipBlanks l with
  | '0' :: 'x' :: t => takeDigits 16 false 0 t
  | t => takeDigits 10 false 0 t

/-- A byte operand: a number, or a character in single quotes, its ASCII code (R88). A character of code 128 or
above has no ASCII code and is no byte operand (DESIGN CHOICE, log 11). -/
def takeByte (l : List Char) : Option (Nat × List Char) :=
  match skipBlanks l with
  | '\'' :: c :: '\'' :: t => if c.toNat < 128 then some (c.toNat, t) else none
  | t => takeNumber t

/-- Comma-separated numbers, exactly `k` of them, then nothing. -/
def takeNumbers : Nat → List Char → Option (List Nat)
  | 0, _ => none
  | 1, l =>
    match takeNumber l with
    | some (v, t) => if skipBlanks t = [] then some [v] else none
    | none => none
  | k + 1, l =>
    match takeNumber l with
    | some (v, t) =>
      match skipBlanks t with
      | ',' :: u => (takeNumbers k u).map (fun vs => v :: vs)
      | _ => none
    | none => none

/-- The characters up to the closing double quote, after which nothing may follow. -/
def takeText : List Char → Option (List Char)
  | [] => none
  | c :: t => if c = '"' then (if skipBlanks t = [] then some [] else none) else (takeText t).map (fun u => c :: u)

/-- A text operand in double quotes. -/
def takeQuoted (l : List Char) : Option (List Char) :=
  match skipBlanks l with
  | '"' :: t => takeText t
  | _ => none

/-- The bytes of ASCII text, as written (R89). -/
def textBytes : List Char → Except AsmError (List Byte)
  | [] => .ok []
  | c :: t =>
    if c.toNat < 128 then
      match textBytes t with
      | .ok bs => .ok (BitVec.ofNat 8 c.toNat :: bs)
      | .error e => .error e
    else .error .outOfRange

/-- An instruction that a word can carry. -/
def checked (cfg : Config) (seedFits : Bool) (i : Instr) : Except AsmError (List Instr) :=
  if seedFits && i.wellFormed cfg then .ok [i] else .error .outOfRange

/-- The commands one operation and its operand text stand for (R88, R89); ignored fields are assembled as 0. -/
def assembleOp (cfg : Config) (op : AsmOp) (l : List Char) : Except AsmError (List Instr) :=
  match op with
  | .core v .inits =>
    match takeNumbers 1 l with
    | some [k] => checked cfg (decide (k < 2 ^ 64)) (coreInstr v .inits (BitVec.ofNat 64 k))
    | _ => .error .badOperands
  | .core v .absorb =>
    match takeByte l with
    | some (b, t) =>
      if skipBlanks t = [] then checked cfg (decide (b < 256)) (coreInstr v .absorb (BitVec.ofNat 64 b))
      else .error .badOperands
    | none => .error .badOperands
  | .core v .nop => if skipBlanks l = [] then .ok [coreInstr v .nop 0] else .error .badOperands
  | .core v .initd => if skipBlanks l = [] then .ok [coreInstr v .initd 0] else .error .badOperands
  | .run v false =>
    match takeNumbers 4 l with
    | some [n, b, len, k] => checked cfg (decide (k < 2 ^ 64)) (runInstr v false n b len (BitVec.ofNat 64 k))
    | _ => .error .badOperands
  | .run v true =>
    match takeNumbers 3 l with
    | some [n, b, len] => checked cfg true (runInstr v true n b len 0)
    | _ => .error .badOperands
  | .hash v =>
    match takeQuoted l with
    | some text => (textBytes text).map (hashBytes v)
    | none => .error .badOperands
  | .hashs v =>
    match takeNumber l with
    | some (k, t) =>
      match skipBlanks t with
      | ',' :: u =>
        match takeQuoted u with
        | some text =>
          if k < 2 ^ 64 then (textBytes text).map (hashsBytes v (BitVec.ofNat 64 k)) else .error .outOfRange
        | none => .error .badOperands
      | _ => .error .badOperands
    | none => .error .badOperands
  | .cont v =>
    match takeQuoted l with
    | some text => (textBytes text).map (contBytes v)
    | none => .error .badOperands
  | .once v false =>
    match takeNumbers 3 l with
    | some [b, len, k] => checked cfg (decide (k < 2 ^ 64)) (onceJob v false b len (BitVec.ofNat 64 k))
    | _ => .error .badOperands
  | .once v true =>
    match takeNumbers 2 l with
    | some [b, len] => checked cfg true (onceJob v true b len 0)
    | _ => .error .badOperands

def lookupMnemonic (m : List Char) : List (String × AsmOp) → Option AsmOp
  | [] => none
  | (name, op) :: t => if name.toList = m then some op else lookupMnemonic m t

/-- The line without its comment (the first argument: inside a text): a `;` outside a text in double quotes and outside a character in single quotes
begins one, as in the programs of spec/95_test_vectors.md P4. DESIGN CHOICE (log 11): R88 does not define it. -/
def stripComment : Bool → List Char → List Char
  | _, [] => []
  | true, c :: t => c :: stripComment (decide (c ≠ '"')) t
  | false, '\'' :: c :: '\'' :: t => '\'' :: c :: '\'' :: stripComment false t
  | false, c :: t => if c = ';' then [] else c :: stripComment (decide (c = '"')) t

/-- The commands the text of a line stands for, comment taken off. -/
def assembleText (cfg : Config) (line : List Char) : Except AsmError (List Instr) :=
  match lookupMnemonic (takeMnemonic (skipBlanks line)).1 asmMnemonics with
  | some op => assembleOp cfg op (takeMnemonic (skipBlanks line)).2
  | none => .error .unknownMnemonic

/-- The commands one line stands for (R88: "One command per line"). -/
def assembleLine (cfg : Config) (line : List Char) : Except AsmError (List Instr) :=
  assembleText cfg (stripComment false line)

end Sys2Proof.Machine
end

