-- ==== Sys2Proof/Safety.lean ====
section
/-!
DEFINITION. The terms claims use: the invariant every step keeps, the invariant of a running job
(spec/43_repeat_wrapper.md R180), the premises of the functional contract (R185), and a run that nothing
disturbs.
-/
namespace Sys2Proof.Machine

/-- The variant a job does not use. -/
def otherVariant : Variant → Variant
  | .fnv1 => .fnv1a
  | .fnv1a => .fnv1

/-- The wrapper's registers fit their widths, and R180 items 1, 4 and 6 hold of them. -/
structure WrapperInv (cfg : Config) (w : WrapperRegs) : Prop where
  cnt_fits : w.cnt < 2 ^ cfg.cntW
  base_fits : w.base < 2 ^ cfg.addrW
  len_fits : w.len < 2 ^ cfg.lenW
  /-- R180 item 1. -/
  idx_le : w.idx ≤ w.len
  /-- R180 item 4: a pass is left while one runs. -/
  pass_left : w.phase = .byte ∨ w.phase = .rsp → 0 < w.cnt
  /-- A read is issued for a byte of the message only (R55). -/
  reading : w.phase = .rsp → w.idx < w.len
  /-- R180 item 6. -/
  running : w.phase ≠ .idle → w.done = false
  /-- Only the selected core, and only between the bytes of a pass, is in a multi-cycle multiplication. -/
  other_ready : (w.core (otherVariant w.var)).wait = 0
  selected_ready : w.phase ≠ .byte → w.selected.wait = 0

/-- What every step keeps. -/
structure State.Inv (s : State) : Prop where
  cfg_wf : s.cfg.wf = true
  wrap_inv : WrapperInv s.cfg s.wrap
  mem_wf : Memory.wf s.mem = true
  mem_within : Memory.within s.cfg.addrW s.mem = true
  reads_within : ∀ r ∈ s.inflight, r.addr < 2 ^ s.cfg.addrW

/-- Every address of the message is valid and holds its byte (R50; premises P3 and P4 of R185). -/
def holdsMessage (cfg : Config) (m : Memory) (base : Nat) (msg : List Byte) : Prop :=
  ∀ j (h : j < msg.length), Memory.read m (byteAddr cfg base j) = some msg[j]

/-- The invariants of R180 of a running job with count `n`, base `base`, message `msg`, seed `k` and
variant `v`, whose other core holds `u`; with the one read of R51 in flight in `PHASE = RSP` only. -/
structure JobInv (v : Variant) (n base : Nat) (msg : List Byte) (k : Word) (u : CoreRegs)
    (s : State) : Prop where
  n_fits : n < 2 ^ s.cfg.cntW
  len_fits : msg.length < 2 ^ s.cfg.lenW
  busy : s.wrap.phase ≠ .idle
  var_eq : s.wrap.var = v
  base_eq : s.wrap.base = base
  len_eq : s.wrap.len = msg.length
  idx_le : s.wrap.idx ≤ msg.length
  cnt_le : s.wrap.cnt ≤ n
  not_done : s.wrap.done = false
  other_eq : s.wrap.core (otherVariant v) = u
  chain_eq : s.wrap.chain = repeatOf v (n - s.wrap.cnt) msg k
  in_pass : s.wrap.phase = .byte ∨ s.wrap.phase = .rsp →
    0 < s.wrap.cnt ∧ (s.wrap.core v).hashval = hashOf v (msg.take s.wrap.idx) s.wrap.chain
  one_read : s.wrap.phase = .rsp → s.wrap.idx < msg.length ∧
    ∃ r, s.inflight = [r] ∧ r.addr = byteAddr s.cfg base s.wrap.idx ∧
      (r.data = none ∨ r.data = msg[s.wrap.idx]?)
  no_read : s.wrap.phase ≠ .rsp → s.inflight = []
  message : 0 < s.wrap.cnt → holdsMessage s.cfg s.mem base msg

/-- A location of the message memory (R50) that is none of the `len` locations of the message at `base` (P4 of R185,
R266). -/
def outsideMessage (cfg : Config) (base len a : Nat) : Prop :=
  a < 2 ^ cfg.addrW ∧ ∀ j, j < len → a ≠ byteAddr cfg base j

/-- Events that leave a running job over the `len` bytes at `base` alone: no reset of the wrapper (P2 of R185), no
write or free of a location of its message (P4, R59, R266), and a memory that answers exactly the reads it has
accepted (P5, R267). -/
def undisturbing (cfg : Config) (base len : Nat) : Event → Prop
  | .present _ _ => True
  | .withdraw _ => True
  | .edge _ => True
  | .reset .fnv1Core => True
  | .reset .fnv1aCore => True
  | .reset .wrapper => False
  | .sample _ => True
  | .respond => True
  | .stray _ => False
  | .flush => False
  | .writeMsg a _ => outsideMessage cfg base len a
  | .freeMsg a => outsideMessage cfg base len a
  | .pause => True

/-- A machine in which only the wrapper has anything to do and the outside world has scheduled nothing:
every later event is the default one (log 4). -/
structure Quiet (s : State) : Prop where
  schedule_empty : s.schedule = []
  no_cmd1 : s.cmd1 = none
  no_cmd1a : s.cmd1a = none
  ready1 : s.fnv1.wait = 0
  ready1a : s.fnv1a.wait = 0
  no_reads : s.inflight = []

/-- Steps of a job after its START event, with every core cycle of `MIX_LATENCY` counted; with
`MIX_LATENCY = 1` this is `n × (2 + 2 × LEN) + 1` (R186). -/
def jobSteps (cfg : Config) (n len : Nat) : Nat := n * (2 + len * (1 + cfg.mixLatency)) + 1

/-- The message bytes a core command contributes on the core of a variant (R134, R154): an `ABSORB` its
byte, a `NOP` none; no answer for a command that starts a new message or is not for this core. -/
def bytesOf (v : Variant) (i : Instr) : Option (List Byte) :=
  match i with
  | .fnv1Nop _ => if v = .fnv1 then some [] else none
  | .fnv1Initd _ => none
  | .fnv1Inits _ => none
  | .fnv1Absorb data => if v = .fnv1 then some [absorbByte data] else none
  | .fnv1aNop _ => if v = .fnv1a then some [] else none
  | .fnv1aInitd _ => none
  | .fnv1aInits _ => none
  | .fnv1aAbsorb data => if v = .fnv1a then some [absorbByte data] else none
  | .runFnv1 _ _ _ _ => none
  | .runFnv1a _ _ _ _ => none
  | .runFnv1D _ _ _ _ => none
  | .runFnv1aD _ _ _ _ => none

/-- The bytes of a command sequence without `INITD` and `INITS`, in acceptance order (R134, R154). -/
def messageOf (v : Variant) : List Instr → Option (List Byte)
  | [] => some []
  | i :: t =>
    match bytesOf v i, messageOf v t with
    | some b, some bs => some (b ++ bs)
    | _, _ => none

/-- Commands accepted one after another, each as soon as its port is ready again (R90). -/
def runCommands : List Instr → State → Host.Outcome State Fault Refusal
  | [], s => .next s
  | i :: t, s =>
    match exec i (makeReady i.block s) with
    | .next s' => runCommands t s'
    | .fault r => .fault r
    | .refused r => .refused r

/-- The stand-alone core of a variant. -/
def standalone (v : Variant) (s : State) : CoreRegs :=
  match v with
  | .fnv1 => s.fnv1
  | .fnv1a => s.fnv1a

/-- The module that is the stand-alone core of a variant. -/
def coreBlock : Variant → Block
  | .fnv1 => .fnv1Core
  | .fnv1a => .fnv1aCore

/-- The message memory reads the same at every address. -/
def sameMemory (s t : State) : Prop := ∀ a, Memory.read t.mem a = Memory.read s.mem a

/-- The state outside the fnv1_hash_core and its port is unchanged. -/
def sameOutsideFnv1 (s t : State) : Prop :=
  t.cfg = s.cfg ∧ t.fnv1a = s.fnv1a ∧ t.wrap = s.wrap ∧ t.cmd1a = s.cmd1a ∧ t.job = s.job ∧
  t.inflight = s.inflight ∧ t.schedule = s.schedule ∧ t.fresh = s.fresh ∧ sameMemory s t

/-- The state outside the fnv1a_hash_core and its port is unchanged. -/
def sameOutsideFnv1a (s t : State) : Prop :=
  t.cfg = s.cfg ∧ t.fnv1 = s.fnv1 ∧ t.wrap = s.wrap ∧ t.cmd1 = s.cmd1 ∧ t.job = s.job ∧
  t.inflight = s.inflight ∧ t.schedule = s.schedule ∧ t.fresh = s.fresh ∧ sameMemory s t

/-- The state outside the wrapper and its job port is unchanged: both stand-alone cores, their ports, the
message memory and its unanswered reads. -/
def sameOutsideWrapper (s t : State) : Prop :=
  t.cfg = s.cfg ∧ t.fnv1 = s.fnv1 ∧ t.fnv1a = s.fnv1a ∧ t.cmd1 = s.cmd1 ∧ t.cmd1a = s.cmd1a ∧
  t.inflight = s.inflight ∧ t.schedule = s.schedule ∧ t.fresh = s.fresh ∧ sameMemory s t

/-- An edge at a block, with `rst = 1` or `rst = 0`. -/
def edgeOf (rst : Bool) (b : Block) : Event := if rst then .reset b else .edge b

end Sys2Proof.Machine
end

