-- ==== Sys2Proof/Certificates/Slice0/Obligations.lean ====
section
/-!
DEFINITION. The statements for the provers. Each docstring names the rule of spec/ it formalises, or the
sections it rests on and the log entry of any choice of the model in it.
-/
open Sys2Proof Sys2Proof.Machine

/-! ## Encoding (spec/30_encoding.md) -/

/-- R81 to R84: words written out from the spec's formats and examples, on the port each belongs to. -/
def Obligations.SampleWordsDecode : Prop :=
  decode Config.reference .fnv1Core 0x3_0000000000000061 = .ok (.fnv1Absorb 0x61#64) ∧
  decode Config.reference .fnv1aCore 0x3_0000000000000061 = .ok (.fnv1aAbsorb 0x61#64) ∧
  decode Config.reference .fnv1Core 0x2_0123456789abcdef = .ok (.fnv1Inits 0x0123456789abcdef#64) ∧
  decode Config.reference .fnv1aCore 0x1_0000000000000000 = .ok (.fnv1aInitd 0#64) ∧
  decode Config.reference .wrapper 0x2_00000002_00001000_00000002_0000000000000000 =
    .ok (.runFnv1D 2 0x1000 2 0#64) ∧
  decode Config.reference .wrapper 0x1_00000000_dead0000_00000005_1122334455667788 =
    .ok (.runFnv1a 0 0xdead0000 5 0x1122334455667788#64)

/-- Every well-formed instruction, with every operand, is what its word decodes to, at every width of R4. -/
def Obligations.DecodeOfEncode : Prop :=
  ∀ (cfg : Config) (i : Instr), i.wellFormed cfg = true → decode cfg i.block (encode cfg i) = .ok i

/-- Every word a port can carry is the word of exactly the instruction it decodes to: no bit is dropped. -/
def Obligations.EncodeOfDecode : Prop :=
  ∀ (cfg : Config) (b : Block) (w : Nat) (i : Instr), decode cfg b w = .ok i →
    i.block = b ∧ i.wellFormed cfg = true ∧ encode cfg i = w

/-- R86: every word is a legal command with a defined effect, none traps, and ignored bits have none. -/
def Obligations.EveryWordIsACommand : Prop :=
  (∀ (cfg : Config) (b : Block) (w : Nat), w < 2 ^ wordBits cfg b → ∃ i, decode cfg b w = .ok i ∧ i.block = b) ∧
  (∀ (i : Instr) (s : State), ∃ t, exec i s = .next t) ∧
  (∀ (d d' : Word) (s : State), exec (.fnv1Nop d) s = exec (.fnv1Nop d') s ∧
    exec (.fnv1aNop d) s = exec (.fnv1aNop d') s ∧ exec (.fnv1Initd d) s = exec (.fnv1Initd d') s ∧
    exec (.fnv1aInitd d) s = exec (.fnv1aInitd d') s) ∧
  (∀ (d d' : Word) (s : State), d.extractLsb' 0 8 = d'.extractLsb' 0 8 →
    exec (.fnv1Absorb d) s = exec (.fnv1Absorb d') s ∧ exec (.fnv1aAbsorb d) s = exec (.fnv1aAbsorb d') s) ∧
  (∀ (n b l : Nat) (k k' : Word) (s : State), exec (.runFnv1D n b l k) s = exec (.runFnv1D n b l k') s ∧
    exec (.runFnv1aD n b l k) s = exec (.runFnv1aD n b l k') s)

/-- R89 with R134 and R154: the pseudo-instructions' command sequences compute the hash of the text. Each command of
`runCommands` is accepted as soon as its port is ready again (`makeReady`: log 8, 9). -/
def Obligations.PseudoInstructionsHashText : Prop :=
  ∀ (v : Variant) (text : List Byte) (k : Word) (s : State),
    (∃ t, runCommands (hashBytes v text) s = .next t ∧
      (standalone v t).hashval = hashOf v text (initOf v)) ∧
    (∃ t, runCommands (hashsBytes v k text) s = .next t ∧ (standalone v t).hashval = hashOf v text k) ∧
    (∃ t, runCommands (contBytes v text) s = .next t ∧
      (standalone v t).hashval = hashOf v text (standalone v s).hashval) ∧
    (∀ (dseed : Bool) (base len : Nat), onceJob v dseed base len k = runInstr v dseed 1 base len k)

/-! ## The datapath (spec/40_mixing_datapath.md) -/

/-- R111, R112: `shift_sum` is the sum of six shifted copies, a multiplication by `0x100000001b2`; the
shift-adder tree adds `h` and multiplies by the FNV prime modulo 2^64; the rules' examples and corner cases. -/
def Obligations.ShiftAdderTreeMultiplies : Prop :=
  (∀ h : Word, shiftSum h = (h <<< 1) + (h <<< 4) + (h <<< 5) + (h <<< 7) + (h <<< 8) + (h <<< 40)) ∧
  (∀ h : Word, shiftSum h = h * 0x100000001b2#64) ∧
  shiftSum 1#64 = 0x00000100000001b2#64 ∧ shiftSum 0xcbf29ce484222325#64 = 0xe371206801df94ba#64 ∧
  (∀ h : Word, mulPrime h = h + shiftSum h) ∧
  (∀ h : Word, mulPrime h =
    h + (h <<< 1) + (h <<< 4) + (h <<< 5) + (h <<< 7) + (h <<< 8) + (h <<< 40)) ∧
  (∀ h : Word, mulPrime h = h * 0x100000001b3#64) ∧
  (∀ h : Word, (mulPrime h).toNat = h.toNat * 0x100000001b3 % 2 ^ 64) ∧
  mulPrime 0#64 = 0#64 ∧ mulPrime 1#64 = 0x00000100000001b3#64 ∧
  mulPrime 0x8000000000000000#64 = 0x8000000000000000#64 ∧
  mulPrime 0xffffffffffffffff#64 = 0xfffffefffffffe4d#64 ∧
  mulPrime 0x0000000001000000#64 = 0x00000001b3000000#64 ∧
  mulPrime 0xcbf29ce484222325#64 = 0xaf63bd4c8601b7df#64

/-- R113, derived: the reference tree of six adders gives the same value for every `h`. -/
def Obligations.AdderTreeIsMulPrime : Prop := ∀ h : Word, adderTree h = mulPrime h

/-- R114, R115, R116: the XOR-fold stage changes bits [7:0] only, by the byte; the two mixing steps, in their
two orders; the rules' corner cases and examples. -/
def Obligations.XorFoldAndMixingSteps : Prop :=
  (∀ (h : Word) (b : Byte), xorFold h b = h ^^^ b.setWidth 64 ∧
    (xorFold h b).extractLsb' 8 56 = h.extractLsb' 8 56 ∧
    (xorFold h b).extractLsb' 0 8 = h.extractLsb' 0 8 ^^^ b ∧
    xorFold h 0#8 = h ∧ xorFold (xorFold h b) b = h) ∧
  (∀ (h : Word) (b : Byte), mix1 h b = (h * 0x100000001b3#64) ^^^ b.setWidth 64) ∧
  (∀ (h : Word) (b : Byte), mix1a h b = (h ^^^ b.setWidth 64) * 0x100000001b3#64) ∧
  mix1 0xcbf29ce484222325#64 0x61#8 = 0xaf63bd4c8601b7be#64 ∧
  mix1 0#64 0xff#8 = 0xff#64 ∧ mix1 0xffffffffffffffff#64 0xff#8 = 0xfffffefffffffeb2#64 ∧
  mix1a 0xcbf29ce484222325#64 0x61#8 = 0xaf63dc4c8601ec8c#64 ∧
  mix1a 0#64 0xff#8 = 0x0000ff000001b14d#64 ∧
  mix1a 0xffffffffffffffff#64 0xff#8 = 0xfffefffffffe4d00#64 ∧ mix1a 1#64 0x01#8 = 0#64

/-- R118 items 2 and 3: multiplication by the prime has the stated inverse; the mixing steps are
bijections of the state for each byte and injective in the byte for each state. -/
def Obligations.MixingIsBijective : Prop :=
  (∀ h : Word, mulPrime h * 0xce965057aff6957b#64 = h ∧ mulPrime (h * 0xce965057aff6957b#64) = h) ∧
  (∀ (v : Variant) (b : Byte), Function.Bijective (fun h : Word => mixOf v h b)) ∧
  (∀ (v : Variant) (h : Word), Function.Injective (fun b : Byte => mixOf v h b))

/-- R118 items 4 to 7: low bits of the product depend on low bits only, an FNV-1 byte reaches bits [7:0]
only, and the variants agree on a zero byte; R217: so they agree on a message of zero bytes, and yet differ
on some message. -/
def Obligations.MixingLowBits : Prop :=
  (∀ (k : Nat) (h h' : Word), k ≤ 64 → h.toNat % 2 ^ k = h'.toNat % 2 ^ k →
    (mulPrime h).toNat % 2 ^ k = (mulPrime h').toNat % 2 ^ k) ∧
  (∀ h : Word, (mulPrime h).toNat % 256 = (h.toNat % 256) * 0xb3 % 256) ∧
  (∀ (h : Word) (b : Byte), (mix1 h b).extractLsb' 8 56 = (mulPrime h).extractLsb' 8 56) ∧
  (∀ h : Word, mix1 h 0#8 = mulPrime h ∧ mix1a h 0#8 = mulPrime h) ∧
  (∀ (v : Variant) (n : Nat), hashOf v (List.replicate n 0#8) 0#64 = 0#64) ∧
  (∀ (n : Nat) (k : Word), fnv1 (List.replicate n 0#8) k = fnv1a (List.replicate n 0#8) k) ∧
  fnv1 [0x61#8] fnv1Init ≠ fnv1a [0x61#8] fnv1aInit

/-! ## The reference functions (spec/40_mixing_datapath.md R119, R120; spec/44_properties.md) -/

/-- Derived from R120 and R214: the repetition identities of the functions, for both variants. -/
def Obligations.RepetitionIdentities : Prop :=
  ∀ (v : Variant) (s : List Byte) (k : Word),
    repeatOf v 0 s k = k ∧ repeatOf v 1 s k = hashOf v s k ∧
    repeatOf v 2 s k = hashOf v s (hashOf v s k) ∧
    ∀ n m : Nat, repeatOf v (n + m) s k = repeatOf v m s (repeatOf v n s k)

/-- R215: chaining equals concatenation, for both variants (spec/90_conflicts.md C1), and the rule's two
examples. -/
def Obligations.ChainingIsConcatenation : Prop :=
  (∀ (n : Nat) (s : List Byte) (k : Word), fnv1Repeat n s k = fnv1 (repeatBytes s n) k ∧
    fnv1aRepeat n s k = fnv1a (repeatBytes s n) k) ∧
  fnv1Repeat 2 [0x61#8] fnv1Init = 0x08326707b4eb37bb#64 ∧
  fnv1aRepeat 3 [0x61#8] fnv1aInit = 0xe71cbc19053f4da2#64

/-- R216, its first sentence: seed chaining across two messages is the hash of their concatenation. -/
def Obligations.SeedChainingConcatenates : Prop :=
  ∀ (v : Variant) (s t : List Byte) (k : Word), hashOf v t (hashOf v s k) = hashOf v (s ++ t) k

/-! ## The commands of the fnv1_hash_core (spec/41_fnv1_core.md) -/

/-- R130: `FNV1.NOP`, word `0x0_<DATA>`, changes no state. -/
def Obligations.Fnv1NopKeepsHashval : Prop :=
  ∀ (data : Word) (s : State),
    decode s.cfg .fnv1Core (0 * 2 ^ 64 + data.toNat) = .ok (.fnv1Nop data) ∧
    (s.ready .fnv1Core = true → ∃ t, exec (.fnv1Nop data) s = .next t ∧
      t.fnv1 = s.fnv1 ∧ sameOutsideFnv1 s t)

/-- R131: `FNV1.INITD`, word `0x1_<DATA>`, loads `FNV1_INIT`, whatever `hashval` and `DATA` were. -/
def Obligations.Fnv1InitdLoadsBasis : Prop :=
  ∀ (data : Word) (s : State),
    decode s.cfg .fnv1Core (1 * 2 ^ 64 + data.toNat) = .ok (.fnv1Initd data) ∧
    (s.ready .fnv1Core = true → ∃ t, exec (.fnv1Initd data) s = .next t ∧
      t.fnv1.hashval = 0xcbf29ce484222325#64 ∧ sameOutsideFnv1 s t)

/-- R132: `FNV1.INITS seed`, word `0x2_<seed>`, loads the seed. -/
def Obligations.Fnv1InitsLoadsSeed : Prop :=
  ∀ (seed : Word) (s : State),
    decode s.cfg .fnv1Core (2 * 2 ^ 64 + seed.toNat) = .ok (.fnv1Inits seed) ∧
    (s.ready .fnv1Core = true → ∃ t, exec (.fnv1Inits seed) s = .next t ∧
      t.fnv1.hashval = seed ∧ sameOutsideFnv1 s t)

/-- R133: `FNV1.ABSORB b`, word `0x3_<DATA>`: multiply by the prime, then XOR the byte `DATA[7:0]`. -/
def Obligations.Fnv1AbsorbMixes : Prop :=
  ∀ (data : Word) (s : State),
    decode s.cfg .fnv1Core (3 * 2 ^ 64 + data.toNat) = .ok (.fnv1Absorb data) ∧
    (s.ready .fnv1Core = true → ∃ t, exec (.fnv1Absorb data) s = .next t ∧
      t.fnv1.hashval = (s.fnv1.hashval * 0x100000001b3#64) ^^^ (data.extractLsb' 0 8).setWidth 64 ∧
      sameOutsideFnv1 s t)

/-! ## The commands of the fnv1a_hash_core (spec/42_fnv1a_core.md) -/

/-- R150: `FNV1A.NOP`, word `0x0_<DATA>`, changes no state. -/
def Obligations.Fnv1aNopKeepsHashval : Prop :=
  ∀ (data : Word) (s : State),
    decode s.cfg .fnv1aCore (0 * 2 ^ 64 + data.toNat) = .ok (.fnv1aNop data) ∧
    (s.ready .fnv1aCore = true → ∃ t, exec (.fnv1aNop data) s = .next t ∧
      t.fnv1a = s.fnv1a ∧ sameOutsideFnv1a s t)

/-- R151: `FNV1A.INITD`, word `0x1_<DATA>`, loads `FNV1A_INIT`. -/
def Obligations.Fnv1aInitdLoadsBasis : Prop :=
  ∀ (data : Word) (s : State),
    decode s.cfg .fnv1aCore (1 * 2 ^ 64 + data.toNat) = .ok (.fnv1aInitd data) ∧
    (s.ready .fnv1aCore = true → ∃ t, exec (.fnv1aInitd data) s = .next t ∧
      t.fnv1a.hashval = 0xcbf29ce484222325#64 ∧ sameOutsideFnv1a s t)

/-- R152: `FNV1A.INITS seed`, word `0x2_<seed>`, loads the seed. -/
def Obligations.Fnv1aInitsLoadsSeed : Prop :=
  ∀ (seed : Word) (s : State),
    decode s.cfg .fnv1aCore (2 * 2 ^ 64 + seed.toNat) = .ok (.fnv1aInits seed) ∧
    (s.ready .fnv1aCore = true → ∃ t, exec (.fnv1aInits seed) s = .next t ∧
      t.fnv1a.hashval = seed ∧ sameOutsideFnv1a s t)

/-- R153: `FNV1A.ABSORB b`, word `0x3_<DATA>`: XOR the byte `DATA[7:0]`, then multiply by the prime. -/
def Obligations.Fnv1aAbsorbMixes : Prop :=
  ∀ (data : Word) (s : State),
    decode s.cfg .fnv1aCore (3 * 2 ^ 64 + data.toNat) = .ok (.fnv1aAbsorb data) ∧
    (s.ready .fnv1aCore = true → ∃ t, exec (.fnv1aAbsorb data) s = .next t ∧
      t.fnv1a.hashval = (s.fnv1a.hashval ^^^ (data.extractLsb' 0 8).setWidth 64) * 0x100000001b3#64 ∧
      sameOutsideFnv1a s t)

/-! ## Command streams -/

/-- R135, R155: commands accepted without an initialising event continue the hash (`makeReady` inside
`runCommands`: log 8, 9). -/
def Obligations.CommandsContinueTheHash : Prop :=
  ∀ (v : Variant) (cs : List Instr) (bytes m : List Byte) (k : Word) (s : State),
    messageOf v cs = some bytes → (standalone v s).hashval = hashOf v m k →
    ∃ t, runCommands cs s = .next t ∧
      (standalone v t).hashval = hashOf v bytes (hashOf v m k) ∧
      (standalone v t).hashval = hashOf v (m ++ bytes) k

/-- R134, R154: after a reset, an `INITD` or an `INITS k`, a command stream without further initialising
commands leaves the hash of its bytes in `hashval`, and `digest` shows it once the core is ready out of reset. That
each command of `runCommands` meets a ready port (`makeReady`) is the model's way to pass the cycles of a
multiplication and to present a word (log 8, 9). -/
def Obligations.CommandStreamComputesHash : Prop :=
  ∀ (v : Variant) (cs : List Instr) (bytes : List Byte) (data k : Word) (s : State),
    messageOf v cs = some bytes →
    (∃ r t, runEvent (.reset (coreBlock v)) s = .next r ∧ runCommands cs r = .next t ∧
      (standalone v t).hashval = hashOf v bytes (initOf v) ∧
      ∀ n, digestOf false (coreBlock v) n (standalone v (makeReady (coreBlock v) t)) = hashOf v bytes (initOf v)) ∧
    (∃ t, runCommands (coreInstr v .initd data :: cs) s = .next t ∧
      (standalone v t).hashval = hashOf v bytes (initOf v) ∧
      ∀ n, digestOf false (coreBlock v) n (standalone v (makeReady (coreBlock v) t)) = hashOf v bytes (initOf v)) ∧
    (∃ t, runCommands (coreInstr v .inits k :: cs) s = .next t ∧
      (standalone v t).hashval = hashOf v bytes k ∧
      ∀ n, digestOf false (coreBlock v) n (standalone v (makeReady (coreBlock v) t)) = hashOf v bytes k)

/-- Derived from R90 and R91: an instruction on a port that is not ready is not accepted, and nothing
happens: it waits. -/
def Obligations.NotReadyPortWaits : Prop :=
  ∀ (i : Instr) (s : State), s.ready i.block = false → exec i s = .next s

/-- Derived from R22, R31 and R90 (log 8): at a core inside a multi-cycle multiplication an edge only brings
`cmd_ready` one cycle nearer; `hashval` and the waiting word stay. -/
def Obligations.NotReadyCoreCountsDown : Prop :=
  ∀ (k : Nat) (s : State),
    (s.fnv1.wait = k + 1 → runEvent (.edge .fnv1Core) s =
      .next { s with fnv1 := { hashval := s.fnv1.hashval, wait := k } }) ∧
    (s.fnv1a.wait = k + 1 → runEvent (.edge .fnv1aCore) s =
      .next { s with fnv1a := { hashval := s.fnv1a.hashval, wait := k } })

/-- Derived from R22: with `MIX_LATENCY = 1` a core is ready again right after it accepts a command, and
`digest` shows the new `hashval`. -/
def Obligations.DigestValidAfterAcceptance : Prop :=
  ∀ (i : Instr) (s t : State), s.cfg.mixLatency = 1 → exec i s = .next t →
    (i.block = .fnv1Core → s.ready .fnv1Core = true →
      t.cmdReady1 false = true ∧ t.digest1 false = t.fnv1.hashval) ∧
    (i.block = .fnv1aCore → s.ready .fnv1aCore = true →
      t.cmdReady1a false = true ∧ t.digest1a false = t.fnv1a.hashval)

/-- Derived from R90, R91 and R22 (log 3, 8): an accepted word leaves its port, and a core is not ready again
for `MIX_LATENCY - 1` cycles after an `ABSORB` and at once after any other command. -/
def Obligations.AcceptedWordLeavesPort : Prop :=
  ∀ (i : Instr) (s t : State), s.ready i.block = true → exec i s = .next t →
    t.port i.block = none ∧
    (∀ d, i = .fnv1Absorb d → t.fnv1.wait = s.cfg.mixLatency - 1) ∧
    (∀ d, i = .fnv1aAbsorb d → t.fnv1a.wait = s.cfg.mixLatency - 1) ∧
    (i.block = .fnv1Core → (∀ d, i ≠ .fnv1Absorb d) → t.fnv1.wait = 0) ∧
    (i.block = .fnv1aCore → (∀ d, i ≠ .fnv1aAbsorb d) → t.fnv1a.wait = 0)

/-- The frame of the eight core commands, accepted or not: the state outside the block and its port is
unchanged, and every byte of memory with it. -/
def Obligations.CoreCommandFrame : Prop :=
  ∀ (i : Instr) (s t : State), exec i s = .next t →
    (i.block = .fnv1Core → sameOutsideFnv1 s t) ∧ (i.block = .fnv1aCore → sameOutsideFnv1a s t)

/-! ## Jobs (spec/43_repeat_wrapper.md section 2) -/

/-- Derived from R171, its START event (the result of the job is JobComputesRepeatedHash):
`RUN.FNV1`, word `0x0_<n>_<base>_<len>_<seed>`. -/
def Obligations.RunFnv1Starts : Prop :=
  ∀ (n base len : Nat) (seed : Word) (s : State),
    n < 2 ^ s.cfg.cntW → base < 2 ^ s.cfg.addrW → len < 2 ^ s.cfg.lenW →
    decode s.cfg .wrapper (0 * 2 ^ (64 + s.cfg.lenW + s.cfg.addrW + s.cfg.cntW) +
      n * 2 ^ (64 + s.cfg.lenW + s.cfg.addrW) + base * 2 ^ (64 + s.cfg.lenW) + len * 2 ^ 64 + seed.toNat) =
      .ok (.runFnv1 n base len seed) ∧
    (s.wrap.phase = .idle → ∃ t, exec (.runFnv1 n base len seed) s = .next t ∧
      t.wrap = { phase := .check, var := .fnv1, cnt := n, base := base, len := len, idx := 0,
                 chain := seed, done := false, c1 := s.wrap.c1, c1a := s.wrap.c1a } ∧
      t.busy = true ∧ t.jobReady false = false ∧ sameOutsideWrapper s t)

/-- Derived from R172, its START event (the result of the job is JobComputesRepeatedHash):
`RUN.FNV1A`, word `0x1_<n>_<base>_<len>_<seed>`. -/
def Obligations.RunFnv1aStarts : Prop :=
  ∀ (n base len : Nat) (seed : Word) (s : State),
    n < 2 ^ s.cfg.cntW → base < 2 ^ s.cfg.addrW → len < 2 ^ s.cfg.lenW →
    decode s.cfg .wrapper (1 * 2 ^ (64 + s.cfg.lenW + s.cfg.addrW + s.cfg.cntW) +
      n * 2 ^ (64 + s.cfg.lenW + s.cfg.addrW) + base * 2 ^ (64 + s.cfg.lenW) + len * 2 ^ 64 + seed.toNat) =
      .ok (.runFnv1a n base len seed) ∧
    (s.wrap.phase = .idle → ∃ t, exec (.runFnv1a n base len seed) s = .next t ∧
      t.wrap = { phase := .check, var := .fnv1a, cnt := n, base := base, len := len, idx := 0,
                 chain := seed, done := false, c1 := s.wrap.c1, c1a := s.wrap.c1a } ∧
      t.busy = true ∧ t.jobReady false = false ∧ sameOutsideWrapper s t)

/-- Derived from R173, its START event (the result of the job is JobComputesRepeatedHash):
`RUN.FNV1.D`, word `0x2_<n>_<base>_<len>_<SEED>`, `SEED` ignored. -/
def Obligations.RunFnv1DStarts : Prop :=
  ∀ (n base len : Nat) (seed : Word) (s : State),
    n < 2 ^ s.cfg.cntW → base < 2 ^ s.cfg.addrW → len < 2 ^ s.cfg.lenW →
    decode s.cfg .wrapper (2 * 2 ^ (64 + s.cfg.lenW + s.cfg.addrW + s.cfg.cntW) +
      n * 2 ^ (64 + s.cfg.lenW + s.cfg.addrW) + base * 2 ^ (64 + s.cfg.lenW) + len * 2 ^ 64 + seed.toNat) =
      .ok (.runFnv1D n base len seed) ∧
    (s.wrap.phase = .idle → ∃ t, exec (.runFnv1D n base len seed) s = .next t ∧
      t.wrap = { phase := .check, var := .fnv1, cnt := n, base := base, len := len, idx := 0,
                 chain := 0xcbf29ce484222325#64, done := false, c1 := s.wrap.c1, c1a := s.wrap.c1a } ∧
      t.busy = true ∧ t.jobReady false = false ∧ sameOutsideWrapper s t)

/-- Derived from R174, its START event (the result of the job is JobComputesRepeatedHash):
`RUN.FNV1A.D`, word `0x3_<n>_<base>_<len>_<SEED>`, `SEED` ignored. -/
def Obligations.RunFnv1aDStarts : Prop :=
  ∀ (n base len : Nat) (seed : Word) (s : State),
    n < 2 ^ s.cfg.cntW → base < 2 ^ s.cfg.addrW → len < 2 ^ s.cfg.lenW →
    decode s.cfg .wrapper (3 * 2 ^ (64 + s.cfg.lenW + s.cfg.addrW + s.cfg.cntW) +
      n * 2 ^ (64 + s.cfg.lenW + s.cfg.addrW) + base * 2 ^ (64 + s.cfg.lenW) + len * 2 ^ 64 + seed.toNat) =
      .ok (.runFnv1aD n base len seed) ∧
    (s.wrap.phase = .idle → ∃ t, exec (.runFnv1aD n base len seed) s = .next t ∧
      t.wrap = { phase := .check, var := .fnv1a, cnt := n, base := base, len := len, idx := 0,
                 chain := 0xcbf29ce484222325#64, done := false, c1 := s.wrap.c1, c1a := s.wrap.c1a } ∧
      t.busy = true ∧ t.jobReady false = false ∧ sameOutsideWrapper s t)

/-- The frame of the four jobs, accepted or not: the START event touches no core, no memory and no read. -/
def Obligations.JobFrame : Prop :=
  ∀ (i : Instr) (s t : State), i.block = .wrapper → exec i s = .next t →
    sameOutsideWrapper s t ∧ t.wrap.c1 = s.wrap.c1 ∧ t.wrap.c1a = s.wrap.c1a

/-- Derived from R219: default-seed forms equal explicit forms, on the cores and on the wrapper. -/
def Obligations.DefaultSeedFormsEqualExplicit : Prop :=
  ∀ (d seed : Word) (n base len : Nat) (s : State),
    exec (.fnv1Initd d) s = exec (.fnv1Inits 0xcbf29ce484222325#64) s ∧
    exec (.fnv1aInitd d) s = exec (.fnv1aInits 0xcbf29ce484222325#64) s ∧
    exec (.runFnv1D n base len seed) s = exec (.runFnv1 n base len fnv1Init) s ∧
    exec (.runFnv1aD n base len seed) s = exec (.runFnv1a n base len fnv1aInit) s

/-! ## The sequencer (spec/43_repeat_wrapper.md section 3) -/

/-- R175: step CHECK ends the job when `CNT = 0`, else seeds the selected core with `CHAIN`. -/
def Obligations.StepCheckSeedsOrEnds : Prop :=
  ∀ s : State, s.wrap.phase = .check → s.wrap.selected.wait = 0 →
    (s.wrap.cnt = 0 → runEvent (.edge .wrapper) s =
      .next { s with wrap := { s.wrap with done := true, phase := .idle } }) ∧
    (s.wrap.cnt ≠ 0 → ∃ t, runEvent (.edge .wrapper) s = .next t ∧
      (t.wrap.core s.wrap.var).hashval = s.wrap.chain ∧
      t.wrap.core (otherVariant s.wrap.var) = s.wrap.core (otherVariant s.wrap.var) ∧
      t.wrap.idx = 0 ∧ t.wrap.phase = .byte ∧
      t.wrap.var = s.wrap.var ∧ t.wrap.cnt = s.wrap.cnt ∧ t.wrap.base = s.wrap.base ∧
      t.wrap.len = s.wrap.len ∧ t.wrap.chain = s.wrap.chain ∧ t.wrap.done = s.wrap.done ∧
      t.job = s.job ∧ sameOutsideWrapper s t)

/-- R176: at the end of a pass the digest becomes `CHAIN` and `CNT` counts down; `CNT > 0` holds there (R180). -/
def Obligations.StepEndOfPassChains : Prop :=
  ∀ s : State, s.wrap.phase = .byte → s.wrap.selected.wait = 0 → s.wrap.idx = s.wrap.len →
    0 < s.wrap.cnt → s.wrap.cnt < 2 ^ s.cfg.cntW →
    runEvent (.edge .wrapper) s =
      .next { s with wrap := { s.wrap with
        chain := (s.wrap.core s.wrap.var).hashval, cnt := s.wrap.cnt - 1, phase := .check } }

/-- R177 with R58: step BYTE-read reads `(BASE + IDX) mod 2^ADDR_W`, and an invalid address ends the run in
`MsgFault`. -/
def Obligations.StepByteReadAddresses : Prop :=
  ∀ s : State, s.wrap.phase = .byte → s.wrap.selected.wait = 0 → s.wrap.idx ≠ s.wrap.len →
    (Memory.valid s.mem ((s.wrap.base + s.wrap.idx) % 2 ^ s.cfg.addrW) = false →
      runEvent (.edge .wrapper) s = .fault (.msgFault ((s.wrap.base + s.wrap.idx) % 2 ^ s.cfg.addrW))) ∧
    (Memory.valid s.mem ((s.wrap.base + s.wrap.idx) % 2 ^ s.cfg.addrW) = true →
      runEvent (.edge .wrapper) s = .next { s with
        wrap := { s.wrap with phase := .rsp },
        inflight := s.inflight ++ [{ addr := (s.wrap.base + s.wrap.idx) % 2 ^ s.cfg.addrW, data := none }] })

/-- Derived from R178: step RSP absorbs the byte the memory returns, zero-extended, by the selected core's mixing
step, and nothing else changes but two things of the model: the answered read is taken off the list of reads (log 6),
and the selected core is not ready for the `MIX_LATENCY - 1` cycles that follow (log 8). -/
def Obligations.StepRspAbsorbs : Prop :=
  ∀ (r : MemRequest) (q : List MemRequest) (b : Byte) (s : State),
    s.wrap.phase = .rsp → s.inflight = r :: q → requestByte s.mem r = some b →
    s.wrap.idx < s.wrap.len → s.wrap.len < 2 ^ s.cfg.lenW →
    ∃ t, runEvent .respond s = .next t ∧
      t.wrap.core s.wrap.var =
        { hashval := mixOf s.wrap.var (s.wrap.core s.wrap.var).hashval b, wait := s.cfg.mixLatency - 1 } ∧
      t.wrap.core (otherVariant s.wrap.var) = s.wrap.core (otherVariant s.wrap.var) ∧
      t.wrap.idx = s.wrap.idx + 1 ∧ t.wrap.phase = .byte ∧
      t.wrap.var = s.wrap.var ∧ t.wrap.cnt = s.wrap.cnt ∧ t.wrap.base = s.wrap.base ∧
      t.wrap.len = s.wrap.len ∧ t.wrap.chain = s.wrap.chain ∧ t.wrap.done = s.wrap.done ∧
      t.inflight = q ∧ t.job = s.job ∧ sameOutsideWrapper (s.setInflight q) t

/-- Derived from R179: a busy wrapper makes progress. With the selected core ready, an edge in `PHASE = CHECK` or
`BYTE` performs the one enabled step, so `PHASE` changes, or faults on an invalid address (R58); in `PHASE = RSP` an
edge without a response waits for the memory (U10), and a response whose byte the memory has ends the phase. While
the selected core is not ready an edge brings it one cycle nearer (log 8). -/
def Obligations.SequencerProgress : Prop :=
  ∀ s : State,
    (s.wrap.phase = .check → s.wrap.selected.wait = 0 → ∃ t, runEvent (.edge .wrapper) s = .next t ∧
      t.wrap.phase = (if s.wrap.cnt = 0 then .idle else .byte)) ∧
    (s.wrap.phase = .byte → s.wrap.selected.wait = 0 → s.wrap.idx = s.wrap.len →
      ∃ t, runEvent (.edge .wrapper) s = .next t ∧ t.wrap.phase = .check) ∧
    (s.wrap.phase = .byte → s.wrap.selected.wait = 0 → s.wrap.idx ≠ s.wrap.len →
      (∃ t, runEvent (.edge .wrapper) s = .next t ∧ t.wrap.phase = .rsp) ∨
      (Memory.valid s.mem ((s.wrap.base + s.wrap.idx) % 2 ^ s.cfg.addrW) = false ∧
        runEvent (.edge .wrapper) s =
          .fault (.msgFault ((s.wrap.base + s.wrap.idx) % 2 ^ s.cfg.addrW)))) ∧
    (s.wrap.phase = .rsp → s.wrap.selected.wait = 0 → runEvent (.edge .wrapper) s = .next s) ∧
    (∀ (r : MemRequest) (q : List MemRequest) (b : Byte), s.wrap.phase = .rsp → s.inflight = r :: q →
      requestByte s.mem r = some b → ∃ t, runEvent .respond s = .next t ∧ t.wrap.phase = .byte) ∧
    (∀ k : Nat, s.wrap.phase ≠ .idle → s.wrap.selected.wait = k + 1 →
      ∃ t, runEvent (.edge .wrapper) s = .next t ∧ t.wrap.phase = s.wrap.phase ∧
        t.wrap.core s.wrap.var = { hashval := s.wrap.selected.hashval, wait := k })

/-- R57: the address of the read is `BASE + IDX`, the adder is `ADDR_W` bits wide and its carry is dropped; the port
`mem_addr` shows it with every request. -/
def Obligations.MessageAddressWraps : Prop :=
  (∀ s : State, s.memAddr = (s.wrap.base + s.wrap.idx) % 2 ^ s.cfg.addrW) ∧
  (∀ (s : State) (rst : Bool), s.memReqValid rst = true →
    s.memAddrPort rst = (s.wrap.base + s.wrap.idx) % 2 ^ s.cfg.addrW) ∧
  ∀ (cfg : Config) (base idx : Nat),
    byteAddr cfg base idx = (base + idx) % 2 ^ cfg.addrW ∧
    byteAddr cfg base idx < 2 ^ cfg.addrW ∧
    byteAddr cfg base idx = byteAddr cfg base (idx % 2 ^ cfg.addrW) ∧
    (base + idx = 2 ^ cfg.addrW → byteAddr cfg base idx = 0)

/-- Derived from R51 and R271 (log 6): out of `PHASE = RSP` a response changes nothing but the list of unanswered
reads, which loses its oldest, and an unrequested one changes nothing; in `PHASE = RSP` the oldest read's byte is
absorbed, whatever address it was read from, and so is the byte of an unrequested response (R231 item 4). -/
def Obligations.StaleResponses : Prop :=
  (∀ s : State, s.wrap.phase ≠ .rsp → runEvent .respond s = .next (s.setInflight s.inflight.tail)) ∧
  (∀ (b : Byte) (s : State), s.wrap.phase ≠ .rsp → runEvent (.stray b) s = .next s) ∧
  (∀ (a : Nat) (b : Byte) (q : List MemRequest) (s : State), s.wrap.phase = .rsp →
    s.inflight = { addr := a, data := some b } :: q →
    ∃ t, runEvent .respond s = .next t ∧ t.inflight = q ∧ t.wrap.phase = .byte ∧
      (t.wrap.core s.wrap.var).hashval = mixOf s.wrap.var (s.wrap.core s.wrap.var).hashval b) ∧
  (∀ (b : Byte) (s : State), s.wrap.phase = .rsp →
    ∃ t, runEvent (.stray b) s = .next t ∧ t.inflight = s.inflight ∧ t.wrap.phase = .byte ∧
      (t.wrap.core s.wrap.var).hashval = mixOf s.wrap.var (s.wrap.core s.wrap.var).hashval b)

/-! ## Reset (spec/70_reset_and_hazards.md section 1) -/

/-- R260 with the table of R29: the reset event of each module, from every state. -/
def Obligations.ResetEventValues : Prop :=
  ∀ s : State,
    (∃ t, runEvent (.reset .fnv1Core) s = .next t ∧ t.fnv1.hashval = 0xcbf29ce484222325#64 ∧
      t.cmdReady1 false = true ∧ t.digest1 false = 0xcbf29ce484222325#64 ∧ t.cmdReady1 true = false ∧
      runEvent (.reset .fnv1Core) t = .next t) ∧
    (∃ t, runEvent (.reset .fnv1aCore) s = .next t ∧ t.fnv1a.hashval = 0xcbf29ce484222325#64 ∧
      t.cmdReady1a false = true ∧ t.digest1a false = 0xcbf29ce484222325#64 ∧ t.cmdReady1a true = false ∧
      runEvent (.reset .fnv1aCore) t = .next t) ∧
    (∃ t, runEvent (.reset .wrapper) s = .next t ∧
      t.wrap.phase = .idle ∧ t.wrap.var = .fnv1 ∧ t.wrap.cnt = 0 ∧ t.wrap.base = 0 ∧ t.wrap.len = 0 ∧
      t.wrap.idx = 0 ∧ t.wrap.chain = 0xcbf29ce484222325#64 ∧ t.wrap.done = false ∧
      t.wrap.c1.hashval = 0xcbf29ce484222325#64 ∧ t.wrap.c1a.hashval = 0xcbf29ce484222325#64 ∧
      t.jobReady false = true ∧ t.jobReady true = false ∧ t.busy = false ∧ t.doneOut = false ∧
      t.memReqValid false = false ∧ t.result = 0xcbf29ce484222325#64 ∧
      runEvent (.reset .wrapper) t = .next t)

/-- Derived from R29: the machine right after reset (spec values; the empty memory, ports and schedule are
the model's, log 3, 5, 6). -/
def Obligations.ResetStateValues : Prop :=
  State.reset.fnv1.hashval = 0xcbf29ce484222325#64 ∧ State.reset.fnv1a.hashval = 0xcbf29ce484222325#64 ∧
  State.reset.wrap.c1.hashval = 0xcbf29ce484222325#64 ∧
  State.reset.wrap.c1a.hashval = 0xcbf29ce484222325#64 ∧
  State.reset.wrap.chain = 0xcbf29ce484222325#64 ∧ State.reset.wrap.phase = .idle ∧
  State.reset.wrap.done = false ∧ State.reset.wrap.cnt = 0 ∧ State.reset.wrap.base = 0 ∧
  State.reset.wrap.len = 0 ∧ State.reset.wrap.idx = 0 ∧ State.reset.wrap.var = .fnv1 ∧
  State.reset.jobReady false = true ∧ State.reset.cmdReady1 false = true ∧
  State.reset.cmdReady1a false = true ∧ State.reset.memReqValid false = false

/-- Derived from R261 and R262: a word held on a port survives the block's reset and is executed on the reset
state at the next edge; a reset abandons the job, and the reads in flight stay in flight. -/
def Obligations.ResetKeepsWordsAndReads : Prop :=
  ∀ (b : Block) (s t : State), runEvent (.reset b) s = .next t →
    t.port b = s.port b ∧ t.ready b = true ∧ t.inflight = s.inflight ∧ sameMemory s t ∧
    (∀ (w : Nat) (i : Instr), s.port b = some w → decode s.cfg b w = .ok i →
      runEvent (.edge b) t = exec i t)

/-! ## The whole machine -/

/-- When the next event is an edge at a ready block and the word on its port decodes to `i`, a step is `exec`
of `i` on the state whose schedule has moved on (log 3, 7). -/
def Obligations.StepRunsDecodedInstruction : Prop :=
  ∀ (b : Block) (w : Nat) (i : Instr) (s : State), nextEvent s = .edge b → s.ready b = true →
    s.port b = some w → decode s.cfg b w = .ok i →
    step s = exec i { s with schedule := s.schedule.tail, fresh := s.fresh + 1 }

/-- A word presented through `presentNext`, as `withFetchWord` does, is executed by the very next step
(log 9). -/
def Obligations.PresentedWordRunsNext : Prop :=
  ∀ (b : Block) (w : Nat) (i : Instr) (s : State), decode s.cfg b w = .ok i →
    step (presentNext b w s) =
      exec i { (makeReady b s).setPort b (some w) with schedule := s.schedule, fresh := s.fresh + 1 }

/-- The invariant holds right after reset. -/
def Obligations.ResetSatisfiesInvariant : Prop := State.reset.Inv

/-- Every step, whatever the outside world does, keeps the invariant: registers in range, the memory in
canonical form and inside the address space, and items 1, 4 and 6 of R180. -/
def Obligations.StepKeepsInvariant : Prop :=
  ∀ s t : State, s.Inv → step s = .next t → t.Inv

/-- R52: the hardware never writes memory; only the host's own writes and frees change it. -/
def Obligations.HardwareNeverWritesMemory : Prop :=
  ∀ s t : State, step s = .next t → (∀ a b, nextEvent s ≠ .writeMsg a b) → (∀ a, nextEvent s ≠ .freeMsg a) →
    ∀ a, Memory.read t.mem a = Memory.read s.mem a

/-- R59, derived: the host's own write and free change exactly the one location. -/
def Obligations.HostWriteChangesOneLocation : Prop :=
  ∀ (a : Nat) (b : Byte) (s : State), a < 2 ^ s.cfg.addrW →
    (∃ t, runEvent (.writeMsg a b) s = .next t ∧ Memory.read t.mem a = some b ∧
      (∀ a', a' ≠ a → Memory.read t.mem a' = Memory.read s.mem a') ∧ t.wrap = s.wrap ∧
      t.inflight = s.inflight) ∧
    (∃ t, runEvent (.freeMsg a) s = .next t ∧ Memory.read t.mem a = none ∧
      (∀ a', a' ≠ a → Memory.read t.mem a' = Memory.read s.mem a') ∧ t.wrap = s.wrap ∧
      t.inflight = s.inflight)

/-- Derived from R20, R33, R90, R243 and R245: each module's registers change only by that module's own events, and
an edge at a ready module with no word on its port changes nothing but the model's own schedule and counter
(log 3, 7). -/
def Obligations.RegistersChangeByOwnEvents : Prop :=
  (∀ s t : State, step s = .next t →
    (nextEvent s ≠ .edge .fnv1Core → nextEvent s ≠ .reset .fnv1Core → t.fnv1 = s.fnv1) ∧
    (nextEvent s ≠ .edge .fnv1aCore → nextEvent s ≠ .reset .fnv1aCore → t.fnv1a = s.fnv1a) ∧
    (nextEvent s ≠ .edge .wrapper → nextEvent s ≠ .reset .wrapper → nextEvent s ≠ .respond →
      (∀ b, nextEvent s ≠ .stray b) → t.wrap = s.wrap) ∧
    t.cfg = s.cfg) ∧
  (∀ (b : Block) (s : State), nextEvent s = .edge b → s.ready b = true → s.port b = none →
    step s = .next { s with schedule := s.schedule.tail, fresh := s.fresh + 1 })

/-- Derived from R33 and R180 items 5 and 7: while a job runs and the wrapper is not reset, the core not
selected, `VAR`, `BASE` and `LEN` stay, and a job on the port waits. -/
def Obligations.RunningJobUndisturbed : Prop :=
  ∀ s t : State, step s = .next t → s.wrap.phase ≠ .idle → nextEvent s ≠ .reset .wrapper →
    t.wrap.core (otherVariant s.wrap.var) = s.wrap.core (otherVariant s.wrap.var) ∧
    t.wrap.var = s.wrap.var ∧ t.wrap.base = s.wrap.base ∧ t.wrap.len = s.wrap.len ∧
    ((∀ w, nextEvent s ≠ .present .wrapper w) → nextEvent s ≠ .withdraw .wrapper → t.job = s.job)

/-- Derived from R27 and R184: `DONE` is set only by step CHECK with `CNT = 0` and cleared only by START and reset;
in `PHASE = IDLE` every register of the wrapper, `DONE` and `CHAIN` among them, keeps its value until the next START
event or reset, "however long that is". -/
def Obligations.DoneAndChainChangeOnlyAsStated : Prop :=
  ∀ s t : State, step s = .next t →
    (s.wrap.done = false → t.wrap.done = true →
      nextEvent s = .edge .wrapper ∧ s.wrap.phase = .check ∧ s.wrap.cnt = 0 ∧ t.wrap.phase = .idle ∧
      t.wrap.chain = s.wrap.chain) ∧
    (s.wrap.done = true → t.wrap.done = false →
      nextEvent s = .reset .wrapper ∨
      (nextEvent s = .edge .wrapper ∧ s.wrap.phase = .idle ∧ t.wrap.phase = .check)) ∧
    (s.wrap.phase = .idle → nextEvent s ≠ .reset .wrapper →
      t.wrap = s.wrap ∨
      (nextEvent s = .edge .wrapper ∧ t.wrap.phase = .check ∧
        ∃ w i, s.job = some w ∧ decode s.cfg .wrapper w = .ok i ∧ exec i s.begin = .next t))

/-- Derived from R55 and R60: the only read a step can issue is that of step BYTE-read, at
`(BASE + IDX) mod 2^ADDR_W`, a valid location; no step issues two. -/
def Obligations.ReadsOnlyMessageBytes : Prop :=
  ∀ s t : State, step s = .next t → s.inflight.length < t.inflight.length →
    nextEvent s = .edge .wrapper ∧ s.wrap.phase = .byte ∧ s.wrap.idx ≠ s.wrap.len ∧
    Memory.valid s.mem ((s.wrap.base + s.wrap.idx) % 2 ^ s.cfg.addrW) = true ∧
    t.inflight = s.inflight ++ [{ addr := (s.wrap.base + s.wrap.idx) % 2 ^ s.cfg.addrW, data := none }]

/-- Derived from R25 and R62: the word on the job port has no effect on a running job. -/
def Obligations.JobPortIgnoredWhileBusy : Prop :=
  ∀ (p : Option Nat) (s t : State), s.wrap.phase ≠ .idle → runEvent (.edge .wrapper) s = .next t →
    runEvent (.edge .wrapper) (s.setPort .wrapper p) = .next (t.setPort .wrapper p)

/-- Derived from R233 item 6: edges of two different modules, with or without reset, commute. -/
def Obligations.EdgesOfModulesCommute : Prop :=
  ∀ (b b' : Block) (rst rst' : Bool) (s t u : State), b ≠ b' →
    runEvent (edgeOf rst b) s = .next t → runEvent (edgeOf rst' b') s = .next u →
    ∃ z, runEvent (edgeOf rst' b') t = .next z ∧ runEvent (edgeOf rst b) u = .next z

/-! ## Jobs from start to end -/

/-- R180: the START event establishes the invariants of a running job and every undisturbed step keeps them
or ends the job with the digest in `CHAIN`; such a job never faults. The host may present the next job and write or
free every location outside the message meanwhile (R59, R266). -/
def Obligations.JobInvariantsHold : Prop :=
  (∀ (v : Variant) (dseed : Bool) (n base : Nat) (msg : List Byte) (seed : Word) (s t : State),
    n < 2 ^ s.cfg.cntW → base < 2 ^ s.cfg.addrW → msg.length < 2 ^ s.cfg.lenW →
    s.wrap.phase = .idle → s.inflight = [] → (0 < n → holdsMessage s.cfg s.mem base msg) →
    exec (runInstr v dseed n base msg.length seed) s = .next t →
    JobInv v n base msg (jobSeed v dseed seed) (s.wrap.core (otherVariant v)) t) ∧
  (∀ (v : Variant) (n base : Nat) (msg : List Byte) (k : Word) (u : CoreRegs) (s : State),
    JobInv v n base msg k u s → undisturbing s.cfg base msg.length (nextEvent s) →
    (∀ f, step s ≠ .fault f) ∧
    ∀ t, step s = .next t →
      (t.wrap.phase ≠ .idle → JobInv v n base msg k u t) ∧
      (t.wrap.phase = .idle → t.wrap.done = true ∧ t.wrap.cnt = 0 ∧ t.wrap.chain = repeatOf v n msg k))

/-- Derived from R181, R182, R185, R186 and R188, in the model's default order (log 4, 8): an undisturbed job runs for
exactly its steps and no fewer, at every width and latency, and ends with the digest in `CHAIN` and what R188 says
left behind. -/
def Obligations.JobComputesRepeatedHash : Prop :=
  ∀ (v : Variant) (dseed : Bool) (n base : Nat) (msg : List Byte) (seed : Word) (s : State),
    s.cfg.wf = true → n < 2 ^ s.cfg.cntW → base < 2 ^ s.cfg.addrW → msg.length < 2 ^ s.cfg.lenW →
    Quiet s → s.wrap.phase = .idle → s.wrap.c1.wait = 0 → s.wrap.c1a.wait = 0 →
    s.job = some (encode s.cfg (runInstr v dseed n base msg.length seed)) →
    (0 < n → holdsMessage s.cfg s.mem base msg) →
    (∀ k, 1 ≤ k → k < 1 + jobSteps s.cfg n msg.length →
      ∃ u : State, Host.Core.run Sys2Proof.core k s = .next u ∧ u.wrap.phase ≠ .idle) ∧
    ∃ t : State, Host.Core.run Sys2Proof.core (1 + jobSteps s.cfg n msg.length) s = .next t ∧
      t.wrap.phase = .idle ∧ t.wrap.done = true ∧
      t.wrap.chain = repeatOf v n msg (jobSeed v dseed seed) ∧
      t.wrap.cnt = 0 ∧ t.wrap.var = v ∧ t.wrap.base = base ∧ t.wrap.len = msg.length ∧
      t.wrap.idx = (if n = 0 then 0 else msg.length) ∧
      (t.wrap.core v).hashval = (if n = 0 then (s.wrap.core v).hashval else t.wrap.chain) ∧
      t.wrap.core (otherVariant v) = s.wrap.core (otherVariant v) ∧
      t.fnv1 = s.fnv1 ∧ t.fnv1a = s.fnv1a ∧ t.inflight = [] ∧ t.job = none ∧ sameMemory s t

/-- Derived from R58 and R231 in the model's default order (log 4): a job that meets an invalid address after
`m` good bytes of its first pass ends in `MsgFault` of that address. -/
def Obligations.InvalidAddressEndsInMsgFault : Prop :=
  ∀ (v : Variant) (dseed : Bool) (n base len : Nat) (msg : List Byte) (seed : Word) (s : State),
    s.cfg.wf = true → 0 < n → n < 2 ^ s.cfg.cntW → base < 2 ^ s.cfg.addrW → len < 2 ^ s.cfg.lenW →
    msg.length < len → Quiet s → s.wrap.phase = .idle → s.wrap.c1.wait = 0 → s.wrap.c1a.wait = 0 →
    s.job = some (encode s.cfg (runInstr v dseed n base len seed)) →
    holdsMessage s.cfg s.mem base msg →
    Memory.valid s.mem ((base + msg.length) % 2 ^ s.cfg.addrW) = false →
    ∃ k, Host.Core.run Sys2Proof.core k s = .fault (.msgFault ((base + msg.length) % 2 ^ s.cfg.addrW))

/-- Derived from R213 in the model's default order (log 4; `makeReady` inside `runCommands`: log 8, 9): the same
bytes give the same digest as commands on a stand-alone core and as a job with `COUNT = 1` over memory. -/
def Obligations.MemoryAndCommandsAgree : Prop :=
  ∀ (v : Variant) (base : Nat) (msg : List Byte) (seed : Word) (s c : State),
    s.cfg.wf = true → base < 2 ^ s.cfg.addrW → msg.length < 2 ^ s.cfg.lenW →
    Quiet s → s.wrap.phase = .idle → s.wrap.c1.wait = 0 → s.wrap.c1a.wait = 0 →
    s.job = some (encode s.cfg (runInstr v false 1 base msg.length seed)) →
    holdsMessage s.cfg s.mem base msg →
    ∃ t u : State, Host.Core.run Sys2Proof.core (1 + jobSteps s.cfg 1 msg.length) s = .next t ∧
      runCommands (hashsBytes v seed msg) c = .next u ∧
      t.wrap.done = true ∧ t.wrap.chain = (standalone v u).hashval
end

