-- ==== Sys2Proof/Laws/Decode.lean ====
section
/-!
SUPPORT. The fields of a packed word, one lemma per format, and what `decode` does with a word of the
port's width. Proofs about decoding cite these with the word as a variable: unfolding `packCommand` or
`packJob` under `decode` makes Lean evaluate divisions of huge symbolic numbers.
-/
namespace Sys2Proof

theorem field_mul_add {x y a n : Nat} (hy : y < 2 ^ a) : field (x * 2 ^ a + y) a n = x % 2 ^ n := by
  unfold field
  rw [Nat.mul_comm, Nat.mul_add_div (by positivity), Nat.div_eq_of_lt hy, Nat.add_zero]

/-- A field above bit `a` and a value below `2^a` fit the two widths together. -/
theorem pack_fits {x y a b : Nat} (hx : x < 2 ^ b) (hy : y < 2 ^ a) : x * 2 ^ a + y < 2 ^ (b + a) := by
  have h1 : (x + 1) * 2 ^ a ≤ 2 ^ b * 2 ^ a := Nat.mul_le_mul_right _ hx
  rw [Nat.pow_add]
  rw [Nat.add_mul] at h1
  omega

/-- The job word, field within field. -/
theorem packJob_nested (cfg : Config) (op n b l : Nat) (k : Word) :
    packJob cfg op n b l k =
      (((op * 2 ^ cfg.cntW + n) * 2 ^ cfg.addrW + b) * 2 ^ cfg.lenW + l) * 2 ^ 64 + k.toNat := by
  unfold packJob jobOpLo
  simp only [Nat.pow_add]
  ring

/-- The fields of a C-format word (R81). -/
theorem packCommand_fields (op : Nat) (hop : op < 4) (d : Word) :
    packCommand op d < 2 ^ 66 ∧ BitVec.ofNat 64 (packCommand op d) = d ∧
    field (packCommand op d) 64 1 = op % 2 ∧ field (packCommand op d) 65 1 = op / 2 := by
  have h := d.isLt
  unfold packCommand field
  refine ⟨by omega, ?_, by omega, by omega⟩
  apply BitVec.eq_of_toNat_eq
  simp [Nat.mod_eq_of_lt h]

/-- The fields of a J-format word (R82). -/
theorem packJob_fields (cfg : Config) {op n b l : Nat} (k : Word) (hop : op < 4)
    (hf : jobFits cfg n b l = true) (w : Nat) (hw0 : w = packJob cfg op n b l k) :
    w < 2 ^ (jobOpLo cfg + 2) ∧ BitVec.ofNat 64 w = k ∧ field w 64 cfg.lenW = l ∧
    field w (64 + cfg.lenW) cfg.addrW = b ∧ field w (64 + cfg.lenW + cfg.addrW) cfg.cntW = n ∧
    field w (jobOpLo cfg) 1 = op % 2 ∧ field w (jobOpLo cfg + 1) 1 = op / 2 := by
  simp only [jobFits, Bool.and_eq_true, decide_eq_true_eq] at hf
  obtain ⟨⟨hn, hb⟩, hl⟩ := hf
  have hk := k.isLt
  have hw := hw0.trans (packJob_nested ..)
  have h1 := pack_fits hl hk
  have h2 := pack_fits hb h1
  have h3 := pack_fits hn h2
  have h4 := pack_fits (b := 2) hop h3
  have e1 : w = ((op * 2 ^ cfg.cntW + n) * 2 ^ cfg.addrW + b) * 2 ^ (cfg.lenW + 64) +
      (l * 2 ^ 64 + k.toNat) := by
    rw [hw, Nat.pow_add]; ring
  have e2 : w = (op * 2 ^ cfg.cntW + n) * 2 ^ (cfg.addrW + (cfg.lenW + 64)) +
      (b * 2 ^ (cfg.lenW + 64) + (l * 2 ^ 64 + k.toNat)) := by
    rw [hw]; simp only [Nat.pow_add]; ring
  have e3 : w = op * 2 ^ (cfg.cntW + (cfg.addrW + (cfg.lenW + 64))) +
      (n * 2 ^ (cfg.addrW + (cfg.lenW + 64)) + (b * 2 ^ (cfg.lenW + 64) + (l * 2 ^ 64 + k.toNat))) := by
    rw [hw]; simp only [Nat.pow_add]; ring
  have c1 : 64 + cfg.lenW = cfg.lenW + 64 := by omega
  have c2 : 64 + cfg.lenW + cfg.addrW = cfg.addrW + (cfg.lenW + 64) := by omega
  have c3 : jobOpLo cfg = cfg.cntW + (cfg.addrW + (cfg.lenW + 64)) := by unfold jobOpLo; omega
  have c4 : jobOpLo cfg + 2 = 2 + (cfg.cntW + (cfg.addrW + (cfg.lenW + 64))) := by omega
  refine ⟨?_, ?_, ?_, ?_, ?_, ?_, ?_⟩
  · rw [c4, e3]; exact h4
  · rw [hw]
    apply BitVec.eq_of_toNat_eq
    simp [Nat.mod_eq_of_lt hk]
  · rw [hw, field_mul_add hk, Nat.mul_comm, Nat.mul_add_mod, Nat.mod_eq_of_lt hl]
  · rw [c1, e1, field_mul_add h1, Nat.mul_comm, Nat.mul_add_mod, Nat.mod_eq_of_lt hb]
  · rw [c2, e2, field_mul_add h2, Nat.mul_comm, Nat.mul_add_mod, Nat.mod_eq_of_lt hn]
  · rw [c3, e3, field_mul_add h3, Nat.pow_one]
  · unfold field
    rw [Nat.pow_succ, ← Nat.div_div_eq_div_mul, c3, e3, Nat.mul_comm op, Nat.mul_add_div (by positivity),
      Nat.div_eq_of_lt h3]
    omega

/-- The fields of any word of the job port's width, packed again, give the word (R82). -/
theorem packJob_of_fields (cfg : Config) (w : Nat) (h : w < 2 ^ (jobOpLo cfg + 2)) :
    jobFits cfg (field w (64 + cfg.lenW + cfg.addrW) cfg.cntW) (field w (64 + cfg.lenW) cfg.addrW)
      (field w 64 cfg.lenW) = true ∧
    packJob cfg (2 * field w (jobOpLo cfg + 1) 1 + field w (jobOpLo cfg) 1)
      (field w (64 + cfg.lenW + cfg.addrW) cfg.cntW) (field w (64 + cfg.lenW) cfg.addrW)
      (field w 64 cfg.lenW) (BitVec.ofNat 64 w) = w := by
  constructor
  · simp [jobFits, field, Nat.mod_lt]
  · rw [packJob_nested]
    simp only [field, BitVec.toNat_ofNat]
    have hop : w / 2 ^ jobOpLo cfg < 2 ^ 2 := by
      rw [Nat.div_lt_iff_lt_mul (by positivity), Nat.mul_comm, ← Nat.pow_add]
      exact h
    have e1 : 2 * (w / 2 ^ (jobOpLo cfg + 1) % 2 ^ 1) + w / 2 ^ jobOpLo cfg % 2 ^ 1 = w / 2 ^ jobOpLo cfg := by
      rw [Nat.pow_succ, ← Nat.div_div_eq_div_mul]
      generalize w / 2 ^ jobOpLo cfg = q at hop
      omega
    have join : ∀ lo n : Nat, w / 2 ^ (lo + n) * 2 ^ n + w / 2 ^ lo % 2 ^ n = w / 2 ^ lo := by
      intro lo n
      rw [Nat.pow_add, ← Nat.div_div_eq_div_mul, Nat.mul_comm]
      exact Nat.div_add_mod _ _
    rw [e1, show jobOpLo cfg = 64 + cfg.lenW + cfg.addrW + cfg.cntW from rfl, join, join, join]
    have := Nat.div_add_mod w (2 ^ 64)
    omega

theorem decode_fnv1Core {cfg : Config} {w : Nat} (h : w < 2 ^ 66) :
    decode cfg .fnv1Core w = .ok (decodeFnv1 w) := by
  simp only [decode, wordBits, h, if_true]

theorem decode_fnv1aCore {cfg : Config} {w : Nat} (h : w < 2 ^ 66) :
    decode cfg .fnv1aCore w = .ok (decodeFnv1a w) := by
  simp only [decode, wordBits, h, if_true]

theorem decode_wrapper {cfg : Config} {w : Nat} (h : w < 2 ^ (jobOpLo cfg + 2)) :
    decode cfg .wrapper w = .ok (decodeJob cfg w) := by
  simp only [decode, wordBits, h, if_true]

/-- The port decides the block (R80, R87). -/
theorem decode_block {cfg : Config} {b : Block} {w : Nat} {i : Instr} (h : decode cfg b w = .ok i) :
    i.block = b := by
  unfold decode at h
  split at h
  · cases b <;> simp only [Except.ok.injEq] at h <;> subst h
    · unfold decodeFnv1
      split <;> rfl
    · unfold decodeFnv1a
      split <;> rfl
    · unfold decodeJob
      dsimp only
      split <;> rfl
  · cases h

end Sys2Proof
end

