-- ==== Sys2Proof/Laws/Memory.lean ====
section
/-!
SUPPORT. The laws of the message memory: a read after a write, and the canonical form, which every
operation keeps.
-/
namespace Sys2Proof.Machine

@[simp] theorem Memory.read_nil (a : Nat) : Memory.read [] a = none := rfl

@[simp] theorem Memory.read_write_same (m : Memory) (a : Nat) (b : Byte) :
    Memory.read (Memory.write m a b) a = some b := by
  induction m with
  | nil => simp [Memory.write, Memory.read]
  | cons e m ih =>
    obtain ⟨k, c⟩ := e
    simp only [Memory.write]
    split
    · simp [Memory.read]
    · split
      · simp [Memory.read]
      · rename_i h
        simp [Memory.read, ih, Ne.symm h]

theorem Memory.read_write_other (m : Memory) {a a' : Nat} (b : Byte) (h : a' ≠ a) :
    Memory.read (Memory.write m a b) a' = Memory.read m a' := by
  induction m with
  | nil => simp [Memory.write, Memory.read, Ne.symm h]
  | cons e m ih =>
    obtain ⟨k, c⟩ := e
    simp only [Memory.write]
    split
    · simp [Memory.read, Ne.symm h]
    · split
      · rename_i hk
        subst hk
        simp [Memory.read, Ne.symm h]
      · simp [Memory.read, ih]

@[simp] theorem Memory.read_free_same (m : Memory) (a : Nat) : Memory.read (Memory.free m a) a = none := by
  induction m with
  | nil => rfl
  | cons e m ih =>
    obtain ⟨k, c⟩ := e
    by_cases h : k = a <;> simp [Memory.free, Memory.read, h, ih]

theorem Memory.read_free_other (m : Memory) {a a' : Nat} (h : a' ≠ a) :
    Memory.read (Memory.free m a) a' = Memory.read m a' := by
  induction m with
  | nil => rfl
  | cons e m ih =>
    obtain ⟨k, c⟩ := e
    by_cases hk : k = a
    · subst hk
      simp [Memory.free, Memory.read, ih, Ne.symm h]
    · simp [Memory.free, Memory.read, hk, ih]

/-! ## The canonical form -/

theorem Memory.above_mono {lo hi : Nat} (h : lo ≤ hi) (m : Memory) (hm : Memory.above hi m = true) :
    Memory.above lo m = true := by
  induction m with
  | nil => rfl
  | cons e m ih =>
    obtain ⟨k, c⟩ := e
    simp only [Memory.above, Bool.and_eq_true, decide_eq_true_eq] at hm ⊢
    exact ⟨by omega, ih hm.2⟩

theorem Memory.above_write {lo a : Nat} (b : Byte) (m : Memory) (ha : lo < a)
    (hm : Memory.above lo m = true) : Memory.above lo (Memory.write m a b) = true := by
  induction m with
  | nil => simp [Memory.write, Memory.above, ha]
  | cons e m ih =>
    obtain ⟨k, c⟩ := e
    simp only [Memory.above, Bool.and_eq_true, decide_eq_true_eq] at hm
    simp only [Memory.write]
    split
    · simp [Memory.above, ha, hm]
    · split
      · simp [Memory.above, ha, hm]
      · simp [Memory.above, hm, ih hm.2]

theorem Memory.write_wf (m : Memory) (a : Nat) (b : Byte) (hm : Memory.wf m = true) :
    Memory.wf (Memory.write m a b) = true := by
  induction m with
  | nil => rfl
  | cons e m ih =>
    obtain ⟨k, c⟩ := e
    simp only [Memory.wf, Bool.and_eq_true] at hm
    simp only [Memory.write]
    split
    · rename_i h
      simp [Memory.wf, Memory.above, h, hm, Memory.above_mono (Nat.le_of_lt h) m hm.1]
    · split
      · rename_i h
        subst h
        simp [Memory.wf, hm]
      · have hlt : k < a := by omega
        simp [Memory.wf, ih hm.2, Memory.above_write b m hlt hm.1]

theorem Memory.above_free {lo : Nat} (a : Nat) (m : Memory) (hm : Memory.above lo m = true) :
    Memory.above lo (Memory.free m a) = true := by
  induction m with
  | nil => rfl
  | cons e m ih =>
    obtain ⟨k, c⟩ := e
    simp only [Memory.above, Bool.and_eq_true, decide_eq_true_eq] at hm
    by_cases h : k = a <;> simp [Memory.free, Memory.above, h, hm, ih hm.2]

theorem Memory.free_wf (m : Memory) (a : Nat) (hm : Memory.wf m = true) :
    Memory.wf (Memory.free m a) = true := by
  induction m with
  | nil => rfl
  | cons e m ih =>
    obtain ⟨k, c⟩ := e
    simp only [Memory.wf, Bool.and_eq_true] at hm
    by_cases h : k = a
    · simp [Memory.free, h, ih hm.2]
    · simp [Memory.free, Memory.wf, h, ih hm.2, Memory.above_free a m hm.1]

/-! ## Locations stay inside the address space -/

theorem Memory.write_within {n a : Nat} (b : Byte) (m : Memory) (ha : a < 2 ^ n)
    (hm : Memory.within n m = true) : Memory.within n (Memory.write m a b) = true := by
  induction m with
  | nil => simp [Memory.write, Memory.within, ha]
  | cons e m ih =>
    obtain ⟨k, c⟩ := e
    simp only [Memory.within, Bool.and_eq_true, decide_eq_true_eq] at hm
    simp only [Memory.write]
    split
    · simp [Memory.within, ha, hm]
    · split
      · simp [Memory.within, ha, hm]
      · simp [Memory.within, hm, ih hm.2]

theorem Memory.free_within {n : Nat} (a : Nat) (m : Memory) (hm : Memory.within n m = true) :
    Memory.within n (Memory.free m a) = true := by
  induction m with
  | nil => rfl
  | cons e m ih =>
    obtain ⟨k, c⟩ := e
    simp only [Memory.within, Bool.and_eq_true, decide_eq_true_eq] at hm
    by_cases h : k = a
    · simp [Memory.free, h, ih hm.2]
    · simp [Memory.free, Memory.within, h, hm, ih hm.2]

theorem Memory.valid_of_read {m : Memory} {a : Nat} {b : Byte} (h : Memory.read m a = some b) :
    Memory.valid m a = true := by
  simp [Memory.valid, h]

end Sys2Proof.Machine
end

