-- ==== Sys2Proof/Laws/State.lean ====
section
/-!
SUPPORT. One lemma per field per update of State and of the wrapper's registers, so that no later proof
unfolds a record update.
-/
namespace Sys2Proof.Machine

/-! ## setFnv1 -/

@[simp] theorem State.setFnv1_cfg (s : State) (c : CoreRegs) : (s.setFnv1 c).cfg = s.cfg := rfl
@[simp] theorem State.setFnv1_fnv1 (s : State) (c : CoreRegs) : (s.setFnv1 c).fnv1 = c := rfl
@[simp] theorem State.setFnv1_fnv1a (s : State) (c : CoreRegs) : (s.setFnv1 c).fnv1a = s.fnv1a := rfl
@[simp] theorem State.setFnv1_wrap (s : State) (c : CoreRegs) : (s.setFnv1 c).wrap = s.wrap := rfl
@[simp] theorem State.setFnv1_cmd1 (s : State) (c : CoreRegs) : (s.setFnv1 c).cmd1 = s.cmd1 := rfl
@[simp] theorem State.setFnv1_cmd1a (s : State) (c : CoreRegs) : (s.setFnv1 c).cmd1a = s.cmd1a := rfl
@[simp] theorem State.setFnv1_job (s : State) (c : CoreRegs) : (s.setFnv1 c).job = s.job := rfl
@[simp] theorem State.setFnv1_mem (s : State) (c : CoreRegs) : (s.setFnv1 c).mem = s.mem := rfl
@[simp] theorem State.setFnv1_inflight (s : State) (c : CoreRegs) : (s.setFnv1 c).inflight = s.inflight := rfl
@[simp] theorem State.setFnv1_schedule (s : State) (c : CoreRegs) : (s.setFnv1 c).schedule = s.schedule := rfl
@[simp] theorem State.setFnv1_fresh (s : State) (c : CoreRegs) : (s.setFnv1 c).fresh = s.fresh := rfl

/-! ## setFnv1a -/

@[simp] theorem State.setFnv1a_cfg (s : State) (c : CoreRegs) : (s.setFnv1a c).cfg = s.cfg := rfl
@[simp] theorem State.setFnv1a_fnv1 (s : State) (c : CoreRegs) : (s.setFnv1a c).fnv1 = s.fnv1 := rfl
@[simp] theorem State.setFnv1a_fnv1a (s : State) (c : CoreRegs) : (s.setFnv1a c).fnv1a = c := rfl
@[simp] theorem State.setFnv1a_wrap (s : State) (c : CoreRegs) : (s.setFnv1a c).wrap = s.wrap := rfl
@[simp] theorem State.setFnv1a_cmd1 (s : State) (c : CoreRegs) : (s.setFnv1a c).cmd1 = s.cmd1 := rfl
@[simp] theorem State.setFnv1a_cmd1a (s : State) (c : CoreRegs) : (s.setFnv1a c).cmd1a = s.cmd1a := rfl
@[simp] theorem State.setFnv1a_job (s : State) (c : CoreRegs) : (s.setFnv1a c).job = s.job := rfl
@[simp] theorem State.setFnv1a_mem (s : State) (c : CoreRegs) : (s.setFnv1a c).mem = s.mem := rfl
@[simp] theorem State.setFnv1a_inflight (s : State) (c : CoreRegs) : (s.setFnv1a c).inflight = s.inflight := rfl
@[simp] theorem State.setFnv1a_schedule (s : State) (c : CoreRegs) : (s.setFnv1a c).schedule = s.schedule := rfl
@[simp] theorem State.setFnv1a_fresh (s : State) (c : CoreRegs) : (s.setFnv1a c).fresh = s.fresh := rfl

/-! ## setWrap -/

@[simp] theorem State.setWrap_cfg (s : State) (w : WrapperRegs) : (s.setWrap w).cfg = s.cfg := rfl
@[simp] theorem State.setWrap_fnv1 (s : State) (w : WrapperRegs) : (s.setWrap w).fnv1 = s.fnv1 := rfl
@[simp] theorem State.setWrap_fnv1a (s : State) (w : WrapperRegs) : (s.setWrap w).fnv1a = s.fnv1a := rfl
@[simp] theorem State.setWrap_wrap (s : State) (w : WrapperRegs) : (s.setWrap w).wrap = w := rfl
@[simp] theorem State.setWrap_cmd1 (s : State) (w : WrapperRegs) : (s.setWrap w).cmd1 = s.cmd1 := rfl
@[simp] theorem State.setWrap_cmd1a (s : State) (w : WrapperRegs) : (s.setWrap w).cmd1a = s.cmd1a := rfl
@[simp] theorem State.setWrap_job (s : State) (w : WrapperRegs) : (s.setWrap w).job = s.job := rfl
@[simp] theorem State.setWrap_mem (s : State) (w : WrapperRegs) : (s.setWrap w).mem = s.mem := rfl
@[simp] theorem State.setWrap_inflight (s : State) (w : WrapperRegs) : (s.setWrap w).inflight = s.inflight := rfl
@[simp] theorem State.setWrap_schedule (s : State) (w : WrapperRegs) : (s.setWrap w).schedule = s.schedule := rfl
@[simp] theorem State.setWrap_fresh (s : State) (w : WrapperRegs) : (s.setWrap w).fresh = s.fresh := rfl

/-! ## setMem -/

@[simp] theorem State.setMem_cfg (s : State) (m : Memory) : (s.setMem m).cfg = s.cfg := rfl
@[simp] theorem State.setMem_fnv1 (s : State) (m : Memory) : (s.setMem m).fnv1 = s.fnv1 := rfl
@[simp] theorem State.setMem_fnv1a (s : State) (m : Memory) : (s.setMem m).fnv1a = s.fnv1a := rfl
@[simp] theorem State.setMem_wrap (s : State) (m : Memory) : (s.setMem m).wrap = s.wrap := rfl
@[simp] theorem State.setMem_cmd1 (s : State) (m : Memory) : (s.setMem m).cmd1 = s.cmd1 := rfl
@[simp] theorem State.setMem_cmd1a (s : State) (m : Memory) : (s.setMem m).cmd1a = s.cmd1a := rfl
@[simp] theorem State.setMem_job (s : State) (m : Memory) : (s.setMem m).job = s.job := rfl
@[simp] theorem State.setMem_mem (s : State) (m : Memory) : (s.setMem m).mem = m := rfl
@[simp] theorem State.setMem_inflight (s : State) (m : Memory) : (s.setMem m).inflight = s.inflight := rfl
@[simp] theorem State.setMem_schedule (s : State) (m : Memory) : (s.setMem m).schedule = s.schedule := rfl
@[simp] theorem State.setMem_fresh (s : State) (m : Memory) : (s.setMem m).fresh = s.fresh := rfl

/-! ## setInflight -/

@[simp] theorem State.setInflight_cfg (s : State) (q : List MemRequest) : (s.setInflight q).cfg = s.cfg := rfl
@[simp] theorem State.setInflight_fnv1 (s : State) (q : List MemRequest) : (s.setInflight q).fnv1 = s.fnv1 := rfl
@[simp] theorem State.setInflight_fnv1a (s : State) (q : List MemRequest) : (s.setInflight q).fnv1a = s.fnv1a := rfl
@[simp] theorem State.setInflight_wrap (s : State) (q : List MemRequest) : (s.setInflight q).wrap = s.wrap := rfl
@[simp] theorem State.setInflight_cmd1 (s : State) (q : List MemRequest) : (s.setInflight q).cmd1 = s.cmd1 := rfl
@[simp] theorem State.setInflight_cmd1a (s : State) (q : List MemRequest) : (s.setInflight q).cmd1a = s.cmd1a := rfl
@[simp] theorem State.setInflight_job (s : State) (q : List MemRequest) : (s.setInflight q).job = s.job := rfl
@[simp] theorem State.setInflight_mem (s : State) (q : List MemRequest) : (s.setInflight q).mem = s.mem := rfl
@[simp] theorem State.setInflight_inflight (s : State) (q : List MemRequest) : (s.setInflight q).inflight = q := rfl
@[simp] theorem State.setInflight_schedule (s : State) (q : List MemRequest) : (s.setInflight q).schedule = s.schedule := rfl
@[simp] theorem State.setInflight_fresh (s : State) (q : List MemRequest) : (s.setInflight q).fresh = s.fresh := rfl

/-! ## begin -/

@[simp] theorem State.begin_cfg (s : State) : s.begin.cfg = s.cfg := rfl
@[simp] theorem State.begin_fnv1 (s : State) : s.begin.fnv1 = s.fnv1 := rfl
@[simp] theorem State.begin_fnv1a (s : State) : s.begin.fnv1a = s.fnv1a := rfl
@[simp] theorem State.begin_wrap (s : State) : s.begin.wrap = s.wrap := rfl
@[simp] theorem State.begin_cmd1 (s : State) : s.begin.cmd1 = s.cmd1 := rfl
@[simp] theorem State.begin_cmd1a (s : State) : s.begin.cmd1a = s.cmd1a := rfl
@[simp] theorem State.begin_job (s : State) : s.begin.job = s.job := rfl
@[simp] theorem State.begin_mem (s : State) : s.begin.mem = s.mem := rfl
@[simp] theorem State.begin_inflight (s : State) : s.begin.inflight = s.inflight := rfl
@[simp] theorem State.begin_schedule (s : State) : s.begin.schedule = s.schedule.tail := rfl
@[simp] theorem State.begin_fresh (s : State) : s.begin.fresh = s.fresh + 1 := rfl

/-! ## setPort -/

@[simp] theorem State.setPort_cfg (s : State) (b : Block) (p : Option Nat) : (s.setPort b p).cfg = s.cfg := by
  cases b <;> rfl
@[simp] theorem State.setPort_fnv1 (s : State) (b : Block) (p : Option Nat) : (s.setPort b p).fnv1 = s.fnv1 := by
  cases b <;> rfl
@[simp] theorem State.setPort_fnv1a (s : State) (b : Block) (p : Option Nat) : (s.setPort b p).fnv1a = s.fnv1a := by
  cases b <;> rfl
@[simp] theorem State.setPort_wrap (s : State) (b : Block) (p : Option Nat) : (s.setPort b p).wrap = s.wrap := by
  cases b <;> rfl
@[simp] theorem State.setPort_fnv1Core_cmd1 (s : State) (p : Option Nat) : (s.setPort .fnv1Core p).cmd1 = p := rfl
@[simp] theorem State.setPort_fnv1aCore_cmd1 (s : State) (p : Option Nat) : (s.setPort .fnv1aCore p).cmd1 = s.cmd1 := rfl
@[simp] theorem State.setPort_wrapper_cmd1 (s : State) (p : Option Nat) : (s.setPort .wrapper p).cmd1 = s.cmd1 := rfl
@[simp] theorem State.setPort_fnv1Core_cmd1a (s : State) (p : Option Nat) : (s.setPort .fnv1Core p).cmd1a = s.cmd1a := rfl
@[simp] theorem State.setPort_fnv1aCore_cmd1a (s : State) (p : Option Nat) : (s.setPort .fnv1aCore p).cmd1a = p := rfl
@[simp] theorem State.setPort_wrapper_cmd1a (s : State) (p : Option Nat) : (s.setPort .wrapper p).cmd1a = s.cmd1a := rfl
@[simp] theorem State.setPort_fnv1Core_job (s : State) (p : Option Nat) : (s.setPort .fnv1Core p).job = s.job := rfl
@[simp] theorem State.setPort_fnv1aCore_job (s : State) (p : Option Nat) : (s.setPort .fnv1aCore p).job = s.job := rfl
@[simp] theorem State.setPort_wrapper_job (s : State) (p : Option Nat) : (s.setPort .wrapper p).job = p := rfl
@[simp] theorem State.setPort_mem (s : State) (b : Block) (p : Option Nat) : (s.setPort b p).mem = s.mem := by
  cases b <;> rfl
@[simp] theorem State.setPort_inflight (s : State) (b : Block) (p : Option Nat) : (s.setPort b p).inflight = s.inflight := by
  cases b <;> rfl
@[simp] theorem State.setPort_schedule (s : State) (b : Block) (p : Option Nat) : (s.setPort b p).schedule = s.schedule := by
  cases b <;> rfl
@[simp] theorem State.setPort_fresh (s : State) (b : Block) (p : Option Nat) : (s.setPort b p).fresh = s.fresh := by
  cases b <;> rfl

@[simp] theorem State.port_setPort_same (s : State) (b : Block) (p : Option Nat) : (s.setPort b p).port b = p := by
  cases b <;> rfl

theorem State.port_setPort_other (s : State) {b c : Block} (p : Option Nat) (h : c ≠ b) :
    (s.setPort b p).port c = s.port c := by
  cases b <;> cases c <;> first | rfl | exact absurd rfl h

@[simp] theorem State.port_fnv1Core (s : State) : s.port .fnv1Core = s.cmd1 := rfl
@[simp] theorem State.port_fnv1aCore (s : State) : s.port .fnv1aCore = s.cmd1a := rfl
@[simp] theorem State.port_wrapper (s : State) : s.port .wrapper = s.job := rfl

/-! ## Signals (R22, R25) -/

@[simp] theorem State.ready_fnv1Core (s : State) : s.ready .fnv1Core = decide (s.fnv1.wait = 0) := by
  simp [State.ready, State.cmdReady1, cmdReady]

/-- `digest` of a ready core out of reset is its `hashval` (R22). -/
@[simp] theorem digestOf_ready {c : CoreRegs} (h : c.wait = 0) (b : Block) (n : Nat) :
    digestOf false b n c = c.hashval := by
  simp [digestOf, cmdReady, h]

/-- In a cycle with `rst = 1` `digest` is the free value (log 7). -/
@[simp] theorem digestOf_reset (b : Block) (n : Nat) (c : CoreRegs) :
    digestOf true b n c = Config.digestWhileBusy b n := by
  simp [digestOf, cmdReady]

/-- `mem_addr` with a request is the address of the read (R51, R57). -/
theorem State.memAddrPort_request {s : State} {rst : Bool} (h : s.memReqValid rst = true) :
    s.memAddrPort rst = s.memAddr := by
  simp [State.memAddrPort, h]

@[simp] theorem State.ready_fnv1aCore (s : State) : s.ready .fnv1aCore = decide (s.fnv1a.wait = 0) := by
  simp [State.ready, State.cmdReady1a, cmdReady]

@[simp] theorem State.ready_wrapper (s : State) : s.ready .wrapper = decide (s.wrap.phase = .idle) := by
  simp [State.ready, State.jobReady]

/-! ## The wrapper's cores -/

@[simp] theorem WrapperRegs.core_setCore_same (w : WrapperRegs) (v : Variant) (c : CoreRegs) :
    (w.setCore v c).core v = c := by
  cases v <;> rfl

theorem WrapperRegs.core_setCore_other (w : WrapperRegs) {v u : Variant} (c : CoreRegs) (h : u ≠ v) :
    (w.setCore v c).core u = w.core u := by
  cases v <;> cases u <;> first | rfl | exact absurd rfl h

@[simp] theorem WrapperRegs.setCore_phase (w : WrapperRegs) (v : Variant) (c : CoreRegs) : (w.setCore v c).phase = w.phase := by
  cases v <;> rfl
@[simp] theorem WrapperRegs.setCore_var (w : WrapperRegs) (v : Variant) (c : CoreRegs) : (w.setCore v c).var = w.var := by
  cases v <;> rfl
@[simp] theorem WrapperRegs.setCore_cnt (w : WrapperRegs) (v : Variant) (c : CoreRegs) : (w.setCore v c).cnt = w.cnt := by
  cases v <;> rfl
@[simp] theorem WrapperRegs.setCore_base (w : WrapperRegs) (v : Variant) (c : CoreRegs) : (w.setCore v c).base = w.base := by
  cases v <;> rfl
@[simp] theorem WrapperRegs.setCore_len (w : WrapperRegs) (v : Variant) (c : CoreRegs) : (w.setCore v c).len = w.len := by
  cases v <;> rfl
@[simp] theorem WrapperRegs.setCore_idx (w : WrapperRegs) (v : Variant) (c : CoreRegs) : (w.setCore v c).idx = w.idx := by
  cases v <;> rfl
@[simp] theorem WrapperRegs.setCore_chain (w : WrapperRegs) (v : Variant) (c : CoreRegs) : (w.setCore v c).chain = w.chain := by
  cases v <;> rfl
@[simp] theorem WrapperRegs.setCore_done (w : WrapperRegs) (v : Variant) (c : CoreRegs) : (w.setCore v c).done = w.done := by
  cases v <;> rfl

theorem otherVariant_ne (v : Variant) : otherVariant v ≠ v := by
  cases v <;> decide

end Sys2Proof.Machine
end

