-- ==== Sys2Proof/Laws/Ops.lean ====
section
/-!
SUPPORT. For each shared operation, what it can do; later proofs cite these and do not unfold the
operations.
-/
namespace Sys2Proof.Machine

/-! ## Acceptance -/

theorem acceptFnv1_ready {f : CoreRegs → CoreRegs} {s : State} (h : s.fnv1.wait = 0) :
    acceptFnv1 f s = .next ((s.setFnv1 (f s.fnv1)).setPort .fnv1Core none) := by
  simp [acceptFnv1, h]

theorem acceptFnv1_waits {f : CoreRegs → CoreRegs} {s : State} (h : s.fnv1.wait ≠ 0) :
    acceptFnv1 f s = .next s := by
  simp [acceptFnv1, h]

theorem acceptFnv1_cases {f : CoreRegs → CoreRegs} {s t : State} (h : acceptFnv1 f s = .next t) :
    (s.fnv1.wait = 0 ∧ t = (s.setFnv1 (f s.fnv1)).setPort .fnv1Core none) ∨ (s.fnv1.wait ≠ 0 ∧ t = s) := by
  by_cases hw : s.fnv1.wait = 0
  · rw [acceptFnv1_ready hw] at h
    cases h
    exact .inl ⟨hw, rfl⟩
  · rw [acceptFnv1_waits hw] at h
    cases h
    exact .inr ⟨hw, rfl⟩

theorem acceptFnv1a_ready {f : CoreRegs → CoreRegs} {s : State} (h : s.fnv1a.wait = 0) :
    acceptFnv1a f s = .next ((s.setFnv1a (f s.fnv1a)).setPort .fnv1aCore none) := by
  simp [acceptFnv1a, h]

theorem acceptFnv1a_waits {f : CoreRegs → CoreRegs} {s : State} (h : s.fnv1a.wait ≠ 0) :
    acceptFnv1a f s = .next s := by
  simp [acceptFnv1a, h]

theorem acceptFnv1a_cases {f : CoreRegs → CoreRegs} {s t : State} (h : acceptFnv1a f s = .next t) :
    (s.fnv1a.wait = 0 ∧ t = (s.setFnv1a (f s.fnv1a)).setPort .fnv1aCore none) ∨
      (s.fnv1a.wait ≠ 0 ∧ t = s) := by
  by_cases hw : s.fnv1a.wait = 0
  · rw [acceptFnv1a_ready hw] at h
    cases h
    exact .inl ⟨hw, rfl⟩
  · rw [acceptFnv1a_waits hw] at h
    cases h
    exact .inr ⟨hw, rfl⟩

theorem acceptJob_ready {v : Variant} {k : Word} {n b l : Nat} {s : State} (h : s.wrap.phase = .idle) :
    acceptJob v k n b l s =
      .next ((s.setWrap (startRegs s.cfg v k n b l s.wrap)).setPort .wrapper none) := by
  simp [acceptJob, h]

theorem acceptJob_waits {v : Variant} {k : Word} {n b l : Nat} {s : State} (h : s.wrap.phase ≠ .idle) :
    acceptJob v k n b l s = .next s := by
  simp [acceptJob, h]

theorem acceptJob_cases {v : Variant} {k : Word} {n b l : Nat} {s t : State}
    (h : acceptJob v k n b l s = .next t) :
    (s.wrap.phase = .idle ∧ t = (s.setWrap (startRegs s.cfg v k n b l s.wrap)).setPort .wrapper none) ∨
      (s.wrap.phase ≠ .idle ∧ t = s) := by
  by_cases hp : s.wrap.phase = .idle
  · rw [acceptJob_ready hp] at h
    cases h
    exact .inl ⟨hp, rfl⟩
  · rw [acceptJob_waits hp] at h
    cases h
    exact .inr ⟨hp, rfl⟩

/-- Everything an instruction can do: its own block accepts it and only that block's registers and port
change, or it is not accepted and nothing changes. -/
theorem exec_cases (i : Instr) (s : State) :
    (∃ c, exec i s = .next ((s.setFnv1 c).setPort .fnv1Core none) ∧ i.block = .fnv1Core ∧ s.fnv1.wait = 0) ∨
    (∃ c, exec i s = .next ((s.setFnv1a c).setPort .fnv1aCore none) ∧ i.block = .fnv1aCore ∧
      s.fnv1a.wait = 0) ∨
    (∃ v k n b l, exec i s = .next ((s.setWrap (startRegs s.cfg v k n b l s.wrap)).setPort .wrapper none) ∧
      i.block = .wrapper ∧ s.wrap.phase = .idle) ∨
    (exec i s = .next s ∧ s.ready i.block = false) := by
  cases i with
  | fnv1Nop | fnv1Initd | fnv1Inits | fnv1Absorb =>
    by_cases h : s.fnv1.wait = 0
    · exact .inl ⟨_, acceptFnv1_ready h, rfl, h⟩
    · exact .inr (.inr (.inr ⟨acceptFnv1_waits h, by simp [Instr.block, h]⟩))
  | fnv1aNop | fnv1aInitd | fnv1aInits | fnv1aAbsorb =>
    by_cases h : s.fnv1a.wait = 0
    · exact .inr (.inl ⟨_, acceptFnv1a_ready h, rfl, h⟩)
    · exact .inr (.inr (.inr ⟨acceptFnv1a_waits h, by simp [Instr.block, h]⟩))
  | runFnv1 | runFnv1a | runFnv1D | runFnv1aD =>
    by_cases h : s.wrap.phase = .idle
    · exact .inr (.inr (.inl ⟨_, _, _, _, _, acceptJob_ready h, rfl, h⟩))
    · exact .inr (.inr (.inr ⟨acceptJob_waits h, by simp [Instr.block, h]⟩))

/-! ## The sequencer -/

theorem stepByteRead_cases {s t : State} (h : stepByteRead s = .next t) :
    Memory.valid s.mem s.memAddr = true ∧
      t = (s.setWrap { s.wrap with phase := .rsp }).setInflight
        (s.inflight ++ [{ addr := s.memAddr, data := none }]) := by
  unfold stepByteRead at h
  split at h
  · rename_i hv
    cases h
    exact ⟨hv, rfl⟩
  · cases h

/-- The steps of R175 to R177, the wait for the memory, and the wait for the core. -/
theorem sequencerEdge_cases {s t : State} (h : sequencerEdge s = .next t) :
    (s.wrap.selected.wait ≠ 0 ∧
      t = s.setWrap (s.wrap.setCore s.wrap.var (coreWait s.wrap.selected))) ∨
    (s.wrap.selected.wait = 0 ∧
      ((s.wrap.phase = .idle ∧ t = s) ∨
       (s.wrap.phase = .check ∧ t = s.setWrap (stepCheck s.wrap)) ∨
       (s.wrap.phase = .byte ∧ s.wrap.idx = s.wrap.len ∧ t = s.setWrap (stepEndOfPass s.cfg s.wrap)) ∨
       (s.wrap.phase = .byte ∧ s.wrap.idx ≠ s.wrap.len ∧ Memory.valid s.mem s.memAddr = true ∧
        t = (s.setWrap { s.wrap with phase := .rsp }).setInflight
          (s.inflight ++ [{ addr := s.memAddr, data := none }])) ∨
       (s.wrap.phase = .rsp ∧ t = s))) := by
  unfold sequencerEdge at h
  split at h
  · rename_i hw
    refine .inr ⟨hw, ?_⟩
    split at h
    · cases h; exact .inl ⟨‹_›, rfl⟩
    · cases h; exact .inr (.inl ⟨‹_›, rfl⟩)
    · split at h
      · cases h; exact .inr (.inr (.inl ⟨‹_›, ‹_›, rfl⟩))
      · obtain ⟨hv, ht⟩ := stepByteRead_cases h
        exact .inr (.inr (.inr (.inl ⟨‹_›, ‹_›, hv, ht⟩)))
    · cases h; exact .inr (.inr (.inr (.inr ⟨‹_›, rfl⟩)))
  · cases h; exact .inl ⟨‹_›, rfl⟩

theorem takeResponse_rsp {b : Byte} {s : State} (h : s.wrap.phase = .rsp) :
    takeResponse b s = s.setWrap (stepRsp s.cfg b s.wrap) := by
  simp [takeResponse, h]

theorem takeResponse_ignored {b : Byte} {s : State} (h : s.wrap.phase ≠ .rsp) : takeResponse b s = s := by
  simp [takeResponse, h]

/-! ## What each step of the sequencer leaves (R175, R176, R178) -/

@[simp] theorem stepCheck_var (w : WrapperRegs) : (stepCheck w).var = w.var := by
  unfold stepCheck; split <;> simp
@[simp] theorem stepCheck_cnt (w : WrapperRegs) : (stepCheck w).cnt = w.cnt := by
  unfold stepCheck; split <;> simp
@[simp] theorem stepCheck_base (w : WrapperRegs) : (stepCheck w).base = w.base := by
  unfold stepCheck; split <;> simp
@[simp] theorem stepCheck_len (w : WrapperRegs) : (stepCheck w).len = w.len := by
  unfold stepCheck; split <;> simp
@[simp] theorem stepCheck_chain (w : WrapperRegs) : (stepCheck w).chain = w.chain := by
  unfold stepCheck; split <;> simp

/-- A pass is left: the selected core is seeded. -/
theorem stepCheck_seeds {w : WrapperRegs} (h : w.cnt ≠ 0) :
    (stepCheck w).phase = .byte ∧ (stepCheck w).idx = 0 ∧ (stepCheck w).done = w.done ∧
    (stepCheck w).core w.var = coreInits w.chain w.selected ∧
    (stepCheck w).core (otherVariant w.var) = w.core (otherVariant w.var) := by
  unfold stepCheck
  rw [if_neg h]
  refine ⟨rfl, rfl, by simp, ?_, ?_⟩ <;> cases w.var <;> rfl

/-- No pass is left: the job ends. -/
theorem stepCheck_ends {w : WrapperRegs} (h : w.cnt = 0) :
    stepCheck w = { w with done := true, phase := .idle } := by
  unfold stepCheck
  rw [if_pos h]

@[simp] theorem stepEndOfPass_core (cfg : Config) (w : WrapperRegs) (v : Variant) :
    (stepEndOfPass cfg w).core v = w.core v := by
  cases v <;> rfl

theorem stepEndOfPass_cnt {cfg : Config} {w : WrapperRegs} (h0 : 0 < w.cnt) (h : w.cnt < 2 ^ cfg.cntW) :
    (stepEndOfPass cfg w).cnt = w.cnt - 1 := by
  show truncTo _ _ = _
  unfold truncTo
  rw [show w.cnt + 2 ^ cfg.cntW - 1 = (w.cnt - 1) + 2 ^ cfg.cntW by omega, Nat.add_mod_right,
    Nat.mod_eq_of_lt (by omega)]

theorem stepRsp_selected (cfg : Config) (b : Byte) (w : WrapperRegs) :
    (stepRsp cfg b w).core w.var = coreAbsorb cfg w.var (zext64 b) w.selected := by
  unfold stepRsp
  cases h : w.var <;> simp [WrapperRegs.setCore, WrapperRegs.core, WrapperRegs.selected, h]

theorem stepRsp_other (cfg : Config) (b : Byte) (w : WrapperRegs) :
    (stepRsp cfg b w).core (otherVariant w.var) = w.core (otherVariant w.var) := by
  unfold stepRsp
  cases h : w.var <;> simp [WrapperRegs.setCore, WrapperRegs.core, otherVariant]

theorem stepRsp_idx {cfg : Config} {b : Byte} {w : WrapperRegs} (h : w.idx + 1 < 2 ^ cfg.lenW) :
    (stepRsp cfg b w).idx = w.idx + 1 := Nat.mod_eq_of_lt h

@[simp] theorem stepRsp_phase (cfg : Config) (b : Byte) (w : WrapperRegs) :
    (stepRsp cfg b w).phase = .byte := rfl
@[simp] theorem stepRsp_var (cfg : Config) (b : Byte) (w : WrapperRegs) : (stepRsp cfg b w).var = w.var := by
  simp [stepRsp]
@[simp] theorem stepRsp_cnt (cfg : Config) (b : Byte) (w : WrapperRegs) : (stepRsp cfg b w).cnt = w.cnt := by
  simp [stepRsp]
@[simp] theorem stepRsp_base (cfg : Config) (b : Byte) (w : WrapperRegs) : (stepRsp cfg b w).base = w.base := by
  simp [stepRsp]
@[simp] theorem stepRsp_len (cfg : Config) (b : Byte) (w : WrapperRegs) : (stepRsp cfg b w).len = w.len := by
  simp [stepRsp]
@[simp] theorem stepRsp_chain (cfg : Config) (b : Byte) (w : WrapperRegs) :
    (stepRsp cfg b w).chain = w.chain := by
  simp [stepRsp]
@[simp] theorem stepRsp_done (cfg : Config) (b : Byte) (w : WrapperRegs) : (stepRsp cfg b w).done = w.done := by
  simp [stepRsp]

/-- The byte of an `ABSORB` that the sequencer sends is the byte it read (R85). -/
@[simp] theorem absorbByte_zext64 (b : Byte) : absorbByte (zext64 b) = b := by
  apply BitVec.eq_of_toNat_eq
  have := b.isLt
  simp [absorbByte, zext64]

/-! ## Events -/

/-- An edge at a block runs the word on a ready port, or does nothing there, or is spent on the block's own
work. -/
theorem runEdge_cases {b : Block} {s t : State} (h : runEdge b s = .next t) :
    (s.ready b = true ∧ ∃ w i, s.port b = some w ∧ decode s.cfg b w = .ok i ∧ exec i s = .next t) ∨
    (s.ready b = true ∧ s.port b = none ∧ t = s) ∨
    (s.ready b = false ∧ busyEdge b s = .next t) := by
  unfold runEdge at h
  split at h
  · rename_i hr
    split at h
    · rename_i w hw
      unfold runWord at h
      split at h
      · exact .inl ⟨hr, w, _, hw, ‹_›, h⟩
      · cases h
    · cases h; exact .inr (.inl ⟨hr, ‹_›, rfl⟩)
  · rename_i hr
    exact .inr (.inr ⟨eq_false_of_ne_true hr, h⟩)

/-- A response out of `PHASE = RSP` is dropped; in `PHASE = RSP` its byte is absorbed. -/
theorem respondOldest_cases {s t : State} (h : respondOldest s = .next t) :
    (s.inflight = [] ∧ t = s) ∨
    (∃ r q, s.inflight = r :: q ∧ s.wrap.phase ≠ .rsp ∧ t = s.setInflight q) ∨
    (∃ r q b, s.inflight = r :: q ∧ s.wrap.phase = .rsp ∧ requestByte s.mem r = some b ∧
      t = (s.setInflight q).setWrap (stepRsp s.cfg b s.wrap)) := by
  unfold respondOldest at h
  split at h
  · cases h; exact .inl ⟨‹_›, rfl⟩
  · rename_i r q hq
    split at h
    · rename_i hp
      split at h
      · cases h
        exact .inr (.inr ⟨r, q, _, hq, hp, ‹_›, takeResponse_rsp (by simpa using hp)⟩)
      · cases h
    · cases h; exact .inr (.inl ⟨r, q, hq, ‹_›, rfl⟩)

end Sys2Proof.Machine
end

