-- ==== Sys2Proof/Laws/PerInstr.lean ====
section
/-!
SUPPORT. A statement made instruction by instruction: the encoder gives a word of the port's width
(spec/30_encoding.md R80 to R82).
-/
namespace Sys2Proof.Laws.EncodeFits

open Sys2Proof

/-- The word of a well-formed instruction has as many bits as its port. -/
def Statement (i : Instr) : Prop :=
  ∀ cfg : Config, i.wellFormed cfg = true → encode cfg i < 2 ^ wordBits cfg i.block

theorem packCommand_lt {op : Nat} (h : op < 4) (data : Word) : packCommand op data < 2 ^ 66 := by
  have := data.isLt
  unfold packCommand
  omega

/-- A sum of a field above bit `a` and a value below `2^a` fits the two widths together. -/
theorem pack_lt {x y a b : Nat} (hx : x < 2 ^ b) (hy : y < 2 ^ a) : x * 2 ^ a + y < 2 ^ (a + b) := by
  have h1 : (x + 1) * 2 ^ a ≤ 2 ^ b * 2 ^ a := Nat.mul_le_mul_right _ hx
  rw [Nat.pow_add, Nat.mul_comm (2 ^ a)]
  rw [Nat.add_mul] at h1
  omega

theorem packJob_lt {cfg : Config} {op n b l : Nat} (hop : op < 4) (seed : Word)
    (h : jobFits cfg n b l = true) : packJob cfg op n b l seed < 2 ^ (jobOpLo cfg + 2) := by
  simp only [jobFits, Bool.and_eq_true, decide_eq_true_eq] at h
  obtain ⟨⟨hn, hb⟩, hl⟩ := h
  have h1 := pack_lt hl seed.isLt
  have h2 := pack_lt hb h1
  have h3 := pack_lt hn h2
  have h4 := pack_lt (b := 2) hop h3
  unfold packJob jobOpLo
  omega

theorem fnv1Nop (data : Word) : Statement (.fnv1Nop data) := fun _ _ => packCommand_lt (by decide) data
theorem fnv1Initd (data : Word) : Statement (.fnv1Initd data) := fun _ _ => packCommand_lt (by decide) data
theorem fnv1Inits (seed : Word) : Statement (.fnv1Inits seed) := fun _ _ => packCommand_lt (by decide) seed
theorem fnv1Absorb (data : Word) : Statement (.fnv1Absorb data) := fun _ _ => packCommand_lt (by decide) data
theorem fnv1aNop (data : Word) : Statement (.fnv1aNop data) := fun _ _ => packCommand_lt (by decide) data
theorem fnv1aInitd (data : Word) : Statement (.fnv1aInitd data) := fun _ _ => packCommand_lt (by decide) data
theorem fnv1aInits (seed : Word) : Statement (.fnv1aInits seed) := fun _ _ => packCommand_lt (by decide) seed
theorem fnv1aAbsorb (data : Word) : Statement (.fnv1aAbsorb data) :=
  fun _ _ => packCommand_lt (by decide) data

theorem runFnv1 (count base len : Nat) (seed : Word) : Statement (.runFnv1 count base len seed) :=
  fun _ h => packJob_lt (by decide) seed h
theorem runFnv1a (count base len : Nat) (seed : Word) : Statement (.runFnv1a count base len seed) :=
  fun _ h => packJob_lt (by decide) seed h
theorem runFnv1D (count base len : Nat) (seed : Word) : Statement (.runFnv1D count base len seed) :=
  fun _ h => packJob_lt (by decide) seed h
theorem runFnv1aD (count base len : Nat) (seed : Word) : Statement (.runFnv1aD count base len seed) :=
  fun _ h => packJob_lt (by decide) seed h

end Sys2Proof.Laws.EncodeFits
end

