-- ==== Sys2Proof/Laws/Step.lean ====
section
/-!
SUPPORT. One step is one event.
-/
namespace Sys2Proof.Machine

theorem step_eq (s : State) : step s = runEvent (nextEvent s) s.begin := rfl

@[simp] theorem runEvent_present (b : Block) (w : Nat) (s : State) :
    runEvent (.present b w) s = .next (s.setPort b (some w)) := rfl
@[simp] theorem runEvent_withdraw (b : Block) (s : State) :
    runEvent (.withdraw b) s = .next (s.setPort b none) := rfl
@[simp] theorem runEvent_edge (b : Block) (s : State) : runEvent (.edge b) s = runEdge b s := rfl
@[simp] theorem runEvent_reset (b : Block) (s : State) : runEvent (.reset b) s = .next (resetBlock b s) := rfl
@[simp] theorem runEvent_respond (s : State) : runEvent .respond s = respondOldest s := rfl
@[simp] theorem runEvent_stray (b : Byte) (s : State) :
    runEvent (.stray b) s = .next (takeResponse b s) := rfl
@[simp] theorem runEvent_flush (s : State) : runEvent .flush s = .next (s.setInflight []) := rfl
@[simp] theorem runEvent_pause (s : State) : runEvent .pause s = .next s := rfl
@[simp] theorem runEvent_sample (k : Nat) (s : State) :
    runEvent (.sample k) s = .next (s.setInflight (s.inflight.modify k (samplePending s.mem))) := rfl

theorem nextEvent_scheduled {s : State} {e : Event} {l : List Event} (h : s.schedule = e :: l) :
    nextEvent s = e := by
  simp [nextEvent, h]

theorem nextEvent_default {s : State} (h : s.schedule = []) : nextEvent s = defaultEvent s := by
  simp [nextEvent, h]

/-- With nothing scheduled and nothing to do at the stand-alone cores, a read in flight is answered next (log 4). -/
theorem nextEvent_answers {s : State} (h : s.schedule = []) (h1 : coreActive s.fnv1 s.cmd1 = false)
    (h1a : coreActive s.fnv1a s.cmd1a = false) (hq : s.inflight ≠ []) : nextEvent s = .respond := by
  simp [nextEvent, h, defaultEvent, h1, h1a, hq]

/-- With nothing scheduled, nothing to do at the stand-alone cores and no read in flight, a wrapper that does not
wait for the memory and has a job or a job on its port has its edge next (log 4). -/
theorem nextEvent_wrapper {s : State} (h : s.schedule = []) (h1 : coreActive s.fnv1 s.cmd1 = false)
    (h1a : coreActive s.fnv1a s.cmd1a = false) (hq : s.inflight = []) (hp : s.wrap.phase ≠ .rsp)
    (hj : s.wrap.phase ≠ .idle ∨ s.job.isSome) : nextEvent s = .edge .wrapper := by
  simp only [nextEvent, h, defaultEvent, h1, h1a, hq, hp, ne_eq, not_true_eq_false, if_false, Bool.false_eq_true]
  rw [if_pos hj]

/-- An edge at a busy wrapper is the sequencer's. -/
theorem runEvent_edge_busy {s : State} (h : s.wrap.phase ≠ .idle) :
    runEvent (.edge .wrapper) s = sequencerEdge s := by
  simp [runEdge, h, busyEdge]

/-- Everything a step from `s` to `t` can be. -/
inductive StepCase (s t : State) : Prop where
  /-- An edge or a reset at the stand-alone fnv1_hash_core: that core and its port. -/
  | core1 (c : CoreRegs) (p : Option Nat)
      (he : nextEvent s = .edge .fnv1Core ∨ nextEvent s = .reset .fnv1Core)
      (ht : t = (s.begin.setFnv1 c).setPort .fnv1Core p)
  /-- The same at the fnv1a_hash_core. -/
  | core1a (c : CoreRegs) (p : Option Nat)
      (he : nextEvent s = .edge .fnv1aCore ∨ nextEvent s = .reset .fnv1aCore)
      (ht : t = (s.begin.setFnv1a c).setPort .fnv1aCore p)
  | wrapReset (he : nextEvent s = .reset .wrapper) (ht : t = s.begin.setWrap wrapReset)
  /-- A START event (R171 to R174), with the job on the port that causes it. -/
  | start (v : Variant) (k : Word) (n b l : Nat) (he : nextEvent s = .edge .wrapper)
      (hp : s.wrap.phase = .idle)
      (hx : ∃ w i, s.job = some w ∧ decode s.cfg .wrapper w = .ok i ∧ exec i s.begin = .next t)
      (ht : t = (s.begin.setWrap (startRegs s.cfg v k n b l s.wrap)).setPort .wrapper none)
  /-- An edge of a running job (R175 to R177). -/
  | job (he : nextEvent s = .edge .wrapper) (hp : s.wrap.phase ≠ .idle)
      (hx : sequencerEdge s.begin = .next t)
  | respond (he : nextEvent s = .respond) (hx : respondOldest s.begin = .next t)
  | stray (b : Byte) (he : nextEvent s = .stray b) (ht : t = takeResponse b s.begin)
  | sample (k : Nat) (he : nextEvent s = .sample k)
      (ht : t = s.begin.setInflight (s.inflight.modify k (samplePending s.mem)))
  | flush (he : nextEvent s = .flush) (ht : t = s.begin.setInflight [])
  | write (a : Nat) (b : Byte) (he : nextEvent s = .writeMsg a b) (ha : a < 2 ^ s.cfg.addrW)
      (ht : t = s.begin.setMem (Memory.write s.mem a b))
  | free (a : Nat) (he : nextEvent s = .freeMsg a) (ha : a < 2 ^ s.cfg.addrW)
      (ht : t = s.begin.setMem (Memory.free s.mem a))
  /-- The host drives a port. -/
  | port (b : Block) (p : Option Nat) (he : (∃ w, nextEvent s = .present b w) ∨ nextEvent s = .withdraw b)
      (ht : t = s.begin.setPort b p)
  /-- A pause, or an edge at an idle wrapper without a job. -/
  | nothing (he : nextEvent s = .pause ∨ nextEvent s = .edge .wrapper) (ht : t = s.begin)

theorem step_cases {s t : State} (h : step s = .next t) : StepCase s t := by
  rw [step_eq] at h
  cases he : nextEvent s with
  | present b w => rw [he] at h; cases h; exact .port b _ (.inl ⟨w, he⟩) rfl
  | withdraw b => rw [he] at h; cases h; exact .port b _ (.inr he) rfl
  | pause => rw [he] at h; cases h; exact .nothing (.inl he) rfl
  | sample k => rw [he] at h; cases h; exact .sample k he rfl
  | flush => rw [he] at h; cases h; exact .flush he rfl
  | stray b => rw [he] at h; cases h; exact .stray b he rfl
  | respond => rw [he] at h; exact .respond he h
  | writeMsg a b =>
    rw [he] at h
    simp only [runEvent] at h
    split at h
    · cases h; exact .write a b he ‹_› rfl
    · cases h
  | freeMsg a =>
    rw [he] at h
    simp only [runEvent] at h
    split at h
    · cases h; exact .free a he ‹_› rfl
    · cases h
  | reset b =>
    rw [he] at h
    cases h
    cases b
    · exact .core1 (coreReset fnv1Init) s.cmd1 (.inr he) rfl
    · exact .core1a (coreReset fnv1aInit) s.cmd1a (.inr he) rfl
    · exact .wrapReset he rfl
  | edge b =>
    rw [he] at h
    rcases runEdge_cases h with ⟨hr, w, i, hw, hd, hx⟩ | ⟨_, _, rfl⟩ | ⟨hn, hx⟩
    · have hib : i.block = b := decode_block hd
      rcases exec_cases i s.begin with ⟨c, e, hb, _⟩ | ⟨c, e, hb, _⟩ | ⟨v, k, n, b', l, e, hb, hp⟩ | ⟨_, hnr⟩
      · rw [e] at hx; cases hx; rw [hib] at hb; subst hb; exact .core1 c none (.inl he) rfl
      · rw [e] at hx; cases hx; rw [hib] at hb; subst hb; exact .core1a c none (.inl he) rfl
      · rw [hib] at hb
        subst hb
        have ht := Host.Outcome.next.inj (e.symm.trans hx)
        exact .start v k n b' l he hp ⟨w, i, hw, hd, hx⟩ ht.symm
      · rw [hib, hr] at hnr; cases hnr
    · cases b
      · exact .core1 s.fnv1 s.cmd1 (.inl he) rfl
      · exact .core1a s.fnv1a s.cmd1a (.inl he) rfl
      · exact .nothing (.inr he) rfl
    · cases b
      · cases hx; exact .core1 (coreWait s.fnv1) s.cmd1 (.inl he) rfl
      · cases hx; exact .core1a (coreWait s.fnv1a) s.cmd1a (.inl he) rfl
      · refine .job he (fun hp => ?_) hx
        rw [State.ready_wrapper] at hn
        simp [hp] at hn

/-- One more step of a run. -/
theorem core_run_next {s t : State} {k : Nat} (h : step s = .next t) :
    Host.Core.run Sys2Proof.core (k + 1) s = Host.Core.run Sys2Proof.core k t := by
  simp only [Host.Core.run]
  rw [show Sys2Proof.core.step s = step s from rfl, h]

end Sys2Proof.Machine
end

