-- ==== Sys2Proof/Tests/Slice0.lean ====
section
/-!
SUPPORT. Small tests, each on one word, one event or one function. Expected values are those of
spec/95_test_vectors.md (V, P numbers) or of the rules' own examples. The last part names, for each
statement with hypotheses, a state and operands that meet them.
-/
namespace Sys2Proof.Tests
open Sys2Proof Sys2Proof.Machine

/-! ## Helpers -/

/-- The state an outcome gives, if it is a next state. -/
def after (o : Host.Outcome State Fault Refusal) : Option State :=
  match o with
  | .next t => some t
  | .fault _ => none
  | .refused _ => none

/-- The fault an outcome gives, if it is one. -/
def faultOf (o : Host.Outcome State Fault Refusal) : Option Fault :=
  match o with
  | .next _ => none
  | .fault r => some r
  | .refused _ => none

/-- The reset machine whose fnv1_hash_core holds `h`. -/
def with1 (h : Word) : State := { State.reset with fnv1 := { hashval := h, wait := 0 } }

/-- The reset machine whose fnv1a_hash_core holds `h`. -/
def with1a (h : Word) : State := { State.reset with fnv1a := { hashval := h, wait := 0 } }

/-- `hashval` of the fnv1_hash_core after the word `w` is accepted on its port. -/
def word1 (h : Word) (w : Nat) : Option Word :=
  (after (step { with1 h with cmd1 := some w })).map (fun t => t.fnv1.hashval)

/-- The same on the fnv1a_hash_core. -/
def word1a (h : Word) (w : Nat) : Option Word :=
  (after (step { with1a h with cmd1a := some w })).map (fun t => t.fnv1a.hashval)

/-- The memory of P3: "ab" at 0x1000. -/
def memAb : Memory := [(0x1000, 0x61#8), (0x1001, 0x62#8)]

/-- The machine of P3 after one of its rows. -/
def p3 (p : Phase) (cnt idx : Nat) (chain c1 : Word) (q : List MemRequest) : State :=
  { State.reset with
    mem := memAb, inflight := q,
    wrap := { phase := p, var := .fnv1, cnt := cnt, base := 0x1000, len := 2, idx := idx, chain := chain,
              done := false, c1 := { hashval := c1, wait := 0 },
              c1a := { hashval := 0xcbf29ce484222325#64, wait := 0 } } }

/-- What a job word leaves in the wrapper's registers. -/
def start (w : Nat) : Option WrapperRegs :=
  (after (step { State.reset with job := some w })).map (fun t => t.wrap)

/-! ## Decoding: one word per row of the opcode table, written out from R81 to R84 -/

theorem test_decode_fnv1_nop : decode Config.reference .fnv1Core 0x0_ffffffffffffffff =
    .ok (.fnv1Nop 0xffffffffffffffff#64) := by rfl
theorem test_decode_fnv1_initd : decode Config.reference .fnv1Core 0x1_00000000deadbeef =
    .ok (.fnv1Initd 0xdeadbeef#64) := by rfl
theorem test_decode_fnv1_inits : decode Config.reference .fnv1Core 0x2_0123456789abcdef =
    .ok (.fnv1Inits 0x0123456789abcdef#64) := by rfl
theorem test_decode_fnv1_absorb : decode Config.reference .fnv1Core 0x3_ffffffffffffff61 =
    .ok (.fnv1Absorb 0xffffffffffffff61#64) := by rfl
theorem test_decode_fnv1a_nop : decode Config.reference .fnv1aCore 0x0_0000000000000061 =
    .ok (.fnv1aNop 0x61#64) := by rfl
theorem test_decode_fnv1a_initd : decode Config.reference .fnv1aCore 0x1_0000000000000000 =
    .ok (.fnv1aInitd 0#64) := by rfl
theorem test_decode_fnv1a_inits : decode Config.reference .fnv1aCore 0x2_ffffffffffffffff =
    .ok (.fnv1aInits 0xffffffffffffffff#64) := by rfl
theorem test_decode_fnv1a_absorb : decode Config.reference .fnv1aCore 0x3_0000000000000080 =
    .ok (.fnv1aAbsorb 0x80#64) := by rfl
theorem test_decode_run_fnv1 :
    decode Config.reference .wrapper 0x0_00000005_00001000_00000002_cbf29ce484222325 =
    .ok (.runFnv1 5 0x1000 2 0xcbf29ce484222325#64) := by rfl
theorem test_decode_run_fnv1a :
    decode Config.reference .wrapper 0x1_00000001_ffffffff_00000002_0000000000000000 =
    .ok (.runFnv1a 1 0xffffffff 2 0#64) := by rfl
theorem test_decode_run_fnv1_d :
    decode Config.reference .wrapper 0x2_00000002_00001000_00000002_ffffffffffffffff =
    .ok (.runFnv1D 2 0x1000 2 0xffffffffffffffff#64) := by rfl
theorem test_decode_run_fnv1a_d :
    decode Config.reference .wrapper 0x3_00000003_00003000_00000001_0000000000000000 =
    .ok (.runFnv1aD 3 0x3000 1 0#64) := by rfl

/-- R82 at widths other than the reference ones: `ADDR_W = 4`, `LEN_W = 8`, `CNT_W = 16`; the word is
written as hexadecimal fields `OP`, `COUNT`, `BASE`, `LEN`, `SEED`. -/
theorem test_decode_other_widths :
    decode { addrW := 4, lenW := 8, cntW := 16, mixLatency := 7 } .wrapper 0x1_abcd_e_f0_0123456789abcdef =
    .ok (.runFnv1a 0xabcd 0xe 0xf0 0x0123456789abcdef#64) := by rfl

/-- R80: a C-format word has 66 bits, a J-format word 162; no port can carry more. -/
theorem test_decode_too_wide :
    decode Config.reference .fnv1Core 0x4_0000000000000000 = .error (.tooWide .fnv1Core) ∧
    decode Config.reference .wrapper 0x4_00000000_00000000_00000000_0000000000000000 =
      .error (.tooWide .wrapper) := ⟨rfl, rfl⟩

/-- R81, R82: the encoder writes the words of V27, V103 and V115. -/
theorem test_encode :
    encode Config.reference (.fnv1aInits 0x0123456789abcdef#64) = 0x2_0123456789abcdef ∧
    encode Config.reference (.runFnv1a 2 0x2000 2 0#64) =
      0x1_00000002_00002000_00000002_0000000000000000 ∧
    encode Config.reference (.runFnv1aD 1 0x4000 256 0#64) =
      0x3_00000001_00004000_00000100_0000000000000000 := by decide

/-! ## Well-formedness: each check refuses its ill-formed term (R82) -/

theorem test_wf_count : Instr.wellFormed Config.reference (.runFnv1 (2 ^ 32) 0 0 0#64) = false := by decide
theorem test_wf_base : Instr.wellFormed Config.reference (.runFnv1aD 0 (2 ^ 32) 0 0#64) = false := by decide
theorem test_wf_len : Instr.wellFormed Config.reference (.runFnv1D 0 0 (2 ^ 32) 0#64) = false := by decide
theorem test_wf_widest : Instr.wellFormed Config.reference
    (.runFnv1a (2 ^ 32 - 1) (2 ^ 32 - 1) (2 ^ 32 - 1) 0#64) = true := by decide

/-! ## The datapath and the reference functions -/

/-- V5, V6, V9, V14. -/
theorem test_shift_adder_tree :
    mulPrime 0x0000000000800000#64 = 0x80000000d9800000#64 ∧
    mulPrime 0x0000000001000000#64 = 0x00000001b3000000#64 ∧
    shiftSum 0x4000000000000000#64 = 0x8000000000000000#64 ∧
    mulPrime 0x0123456789abcdef#64 = 0x9abcddeeeeeeed1d#64 := by decide

/-- V18: the byte is zero-extended. -/
theorem test_mix_zero_extends :
    mix1 0xcbf29ce484222325#64 0x80#8 = 0xaf63bd4c8601b75f#64 ∧
    mix1a 0xcbf29ce484222325#64 0x80#8 = 0xaf643d4c8602915f#64 := by decide

/-- V48, V46: "foobar" and "abc". -/
theorem test_hash_words :
    fnv1 [0x66#8, 0x6f#8, 0x6f#8, 0x62#8, 0x61#8, 0x72#8] fnv1Init = 0x340d8765a4dda9c2#64 ∧
    fnv1a [0x66#8, 0x6f#8, 0x6f#8, 0x62#8, 0x61#8, 0x72#8] fnv1aInit = 0x85944171f73967e8#64 ∧
    fnv1 [0x61#8, 0x62#8, 0x63#8] fnv1Init = 0xd8dcca186bafadcb#64 := by decide

/-- V95, V98. -/
theorem test_repeat :
    fnv1Repeat 2 [0x61#8, 0x62#8] 0#64 = 0x47c3ee01db851b24#64 ∧
    fnv1aRepeat 4 [0x80#8, 0xff#8] 0x0123456789abcdef#64 = 0xf75efe054dfcc23f#64 := by decide

/-! ## Core commands, each a step of the machine with the word on the port -/

/-- V23. -/
theorem test_fnv1_nop : word1 0x1234#64 0x0_ffffffffffffffff = some 0x1234#64 := by decide
/-- V25. -/
theorem test_fnv1_initd : word1 0x1234#64 0x1_00000000deadbeef = some 0xcbf29ce484222325#64 := by decide
/-- V27. -/
theorem test_fnv1_inits : word1 0xcbf29ce484222325#64 0x2_0123456789abcdef =
    some 0x0123456789abcdef#64 := by decide
/-- V30: `DATA[63:8]` ignored. -/
theorem test_fnv1_absorb : word1 0xcbf29ce484222325#64 0x3_ffffffffffffff61 =
    some 0xaf63bd4c8601b7be#64 := by decide
/-- V40. -/
theorem test_fnv1_absorb_top : word1 0x8000000000000000#64 0x3_000000000000007f =
    some 0x800000000000007f#64 := by decide
/-- V23. -/
theorem test_fnv1a_nop : word1a 0x1234#64 0x0_ffffffffffffffff = some 0x1234#64 := by decide
/-- V25. -/
theorem test_fnv1a_initd : word1a 0x1234#64 0x1_00000000deadbeef = some 0xcbf29ce484222325#64 := by decide
/-- V28. -/
theorem test_fnv1a_inits : word1a 0#64 0x2_ffffffffffffffff = some 0xffffffffffffffff#64 := by decide
/-- V39: the fold cancels the state. -/
theorem test_fnv1a_absorb : word1a 0x1#64 0x3_0000000000000001 = some 0#64 := by decide
/-- V40. -/
theorem test_fnv1a_absorb_top : word1a 0x8000000000000000#64 0x3_000000000000007f =
    some 0x80007f000000d7cd#64 := by decide

/-- R275: with `MIX_LATENCY = 7` an `ABSORB` leaves six cycles with `cmd_ready = 0`, a `NOP` none. -/
theorem test_absorb_latency :
    (after (exec (.fnv1Absorb 0x61#64) { State.reset with cfg := { Config.reference with mixLatency := 7 } })).map
      (fun t => (t.fnv1.wait, t.cmdReady1 false)) = some (6, false) ∧
    (after (exec (.fnv1aNop 0#64) { State.reset with cfg := { Config.reference with mixLatency := 7 } })).map
      (fun t => t.cmdReady1a false) = some true := by decide

/-! ## Jobs: the START events -/

/-- V102. -/
theorem test_run_fnv1 : start 0x0_00000002_00001000_00000002_0000000000000000 =
    some { wrapReset with
      phase := .check, var := .fnv1, cnt := 2, base := 0x1000, len := 2, chain := 0#64 } := by decide
/-- V112. -/
theorem test_run_fnv1a : start 0x1_00000001_ffffffff_00000002_0000000000000000 =
    some { wrapReset with
      phase := .check, var := .fnv1a, cnt := 1, base := 0xffffffff, len := 2, chain := 0#64 } := by decide
/-- V111: `SEED` ignored. -/
theorem test_run_fnv1_d : start 0x2_00000002_00001000_00000002_ffffffffffffffff =
    some { wrapReset with
      phase := .check, var := .fnv1, cnt := 2, base := 0x1000, len := 2, chain := 0xcbf29ce484222325#64 } := by decide
/-- V104. -/
theorem test_run_fnv1a_d : start 0x3_00000003_00003000_00000001_0000000000000000 =
    some { wrapReset with
      phase := .check, var := .fnv1a, cnt := 3, base := 0x3000, len := 1, chain := 0xcbf29ce484222325#64 } := by decide

/-! ## The sequencer, each a step from a row of P3 to the next -/

/-- P3 row 1 to 2. -/
theorem test_p3_check : (after (step (p3 .check 2 0 0xcbf29ce484222325#64 0#64 []))).map (fun t => t.wrap) =
    some (p3 .byte 2 0 0xcbf29ce484222325#64 0xcbf29ce484222325#64 []).wrap := by decide
/-- P3 row 4 to 5: the read of 0x1001. -/
theorem test_p3_read :
    (after (step (p3 .byte 2 1 0xcbf29ce484222325#64 0xaf63bd4c8601b7be#64 []))).map
      (fun t => (t.wrap.phase, t.wrap.idx, t.inflight)) =
    some (.rsp, 1, [{ addr := 0x1001, data := none }]) := by decide
/-- P3 row 9 to 10: "ABSORB 0x61". -/
theorem test_p3_rsp :
    (after (step (p3 .rsp 1 0 0x08326707b4eb37b8#64 0x08326707b4eb37b8#64 [{ addr := 0x1000, data := none }]))).map
      (fun t => t.wrap) =
    some (p3 .byte 1 1 0x08326707b4eb37b8#64 0xd8dcca186bafadc9#64 []).wrap := by decide
/-- P3 row 6 to 7. -/
theorem test_p3_end_of_pass :
    (after (step (p3 .byte 2 2 0xcbf29ce484222325#64 0x08326707b4eb37b8#64 []))).map (fun t => t.wrap) =
    some (p3 .check 1 2 0x08326707b4eb37b8#64 0x08326707b4eb37b8#64 []).wrap := by decide
/-- P3 row 13 to 14. -/
theorem test_p3_done :
    (after (step (p3 .check 0 2 0x2ed9307efb844ce9#64 0x2ed9307efb844ce9#64 []))).map
      (fun t => (t.wrap.phase, t.doneOut, t.busy, t.result)) =
    some (.idle, true, false, 0x2ed9307efb844ce9#64) := by decide
/-- V116: the third byte of the message is not there. -/
theorem test_msg_fault :
    faultOf (step { p3 .byte 1 2 0xcbf29ce484222325#64 0x08326707b4eb37b8#64 [] with
      wrap := { (p3 .byte 1 2 0xcbf29ce484222325#64 0x08326707b4eb37b8#64 []).wrap with len := 3 } }) =
    some (.msgFault 0x1002) := by decide
/-- V112: the second byte's address wraps to 0. -/
theorem test_address_wraps : byteAddr Config.reference 0xffffffff 1 = 0 := by decide

/-! ## Reset (section 2.8) -/

/-- V119 from P3 row 4 (V121). -/
theorem test_reset_wrapper :
    (after (runEvent (.reset .wrapper) (p3 .byte 2 1 0xcbf29ce484222325#64 0xaf63bd4c8601b7be#64 []))).map
      (fun t => (t.wrap.phase, t.wrap.cnt, t.wrap.base, t.wrap.done, t.result, t.wrap.c1.hashval)) =
    some (.idle, 0, 0, false, 0xcbf29ce484222325#64, 0xcbf29ce484222325#64) := by decide
/-- R271 in the default order (log 4): after a reset the stale read is answered, and ignored, before the waiting job
starts. -/
theorem test_stale_read_first :
    (after (step { State.reset with
        job := some 0x2_00000002_00001000_00000002_0000000000000000,
        inflight := [{ addr := 0x1000, data := none }] })).map (fun t => (t.inflight, t.wrap.phase, t.job)) =
    some ([], .idle, some 0x2_00000002_00001000_00000002_0000000000000000) := by decide
/-- V120: the word presented through reset is not accepted at the edge with `rst = 1`. -/
theorem test_reset_priority :
    (after (runEvent (.reset .fnv1Core) { with1 0x1234#64 with cmd1 := some 0x2_0000000000000000 })).map
      (fun t => (t.fnv1.hashval, t.cmd1)) =
    some (0xcbf29ce484222325#64, some 0x2_0000000000000000) := by decide

/-! ## Text (R88, R89) -/

/-- The line of P3. -/
theorem test_asm_run : assembleLine Config.reference "RUN.fnv1.d 2, 0x1000, 2".toList =
    .ok [.runFnv1D 2 0x1000 2 0#64] := by decide
/-- P1, its first three characters; no terminator byte. -/
theorem test_asm_hash : assembleLine Config.reference "fnv1a.hash \"foo\"".toList =
    .ok [.fnv1aInitd 0#64, .fnv1aAbsorb 0x66#64, .fnv1aAbsorb 0x6f#64, .fnv1aAbsorb 0x6f#64] := by decide
/-- R89, last row but one, and the character operand of R88. -/
theorem test_asm_once : assembleLine Config.reference "hash.fnv1a 0x2000, 2, 5".toList =
    .ok [.runFnv1a 1 0x2000 2 5#64] ∧
    assembleLine Config.reference "fnv1.absorb 'a'".toList = .ok [.fnv1Absorb 0x61#64] := by decide
/-- An underscore inside a hexadecimal literal (spec/00_scope.md R8). -/
theorem test_asm_separator :
    assembleLine Config.reference "fnv1.inits 0x01234567_89ABcdef".toList =
      .ok [.fnv1Inits 0x0123456789abcdef#64] ∧
    assembleLine Config.reference "fnv1.inits 0x1_".toList = .error .badOperands := by decide
/-- P4's third line, its comment with it (spec/95_test_vectors.md). -/
theorem test_asm_comment :
    assembleLine Config.reference
        "run.fnv1a.d 3, 0x3000, 1   ; word 0x3_00000003_00003000_00000001_0000000000000000".toList =
      .ok [.runFnv1aD 3 0x3000 1 0#64] ∧
    assembleLine Config.reference "fnv1a.cont \";\" ; ':'".toList = .ok [.fnv1aAbsorb 0x3b#64] ∧
    assembleLine Config.reference "fnv1.absorb ';';".toList = .ok [.fnv1Absorb 0x3b#64] := by decide
/-- Log 11: a quoted character without an ASCII code is no byte operand. -/
theorem test_asm_not_ascii :
    assembleLine Config.reference ("fnv1.absorb '".toList ++ [Char.ofNat 0xe4, '\'']) =
      .error .badOperands := by decide

/-! ## The host's two definitions -/

/-- A table row's word, decoded, and run as the first instruction after reset. -/
theorem test_table_word :
    decodeTableWord 162 0x2_00000002_00001000_00000002_0000000000000000 = some (.runFnv1D 2 0x1000 2 0#64) ∧
    (after (step (State.reset.withFetchWord 162 0x2_00000002_00001000_00000002_0000000000000000))).map
      (fun t => (t.wrap.phase, t.wrap.cnt)) = some (.check, 2) ∧
    (after (step (State.reset.withFetchWord 66 0x2_0123456789abcdef))).map (fun t => t.fnv1.hashval) =
      some 0x0123456789abcdef#64 := by decide

/-! ## Witnesses: states and operands that meet a statement's hypotheses, one theorem per statement -/

/-- A job "ab" of P3 whose word is on the port of an otherwise quiet machine. -/
def ready (w : Nat) (m : Memory) : State := { State.reset with job := some w, mem := m }

/-- A machine with `MIX_LATENCY = 7` whose two cores are both in the middle of a multiplication. -/
def slow : State :=
  { State.reset with
    cfg := { Config.reference with mixLatency := 7 },
    fnv1 := { hashval := 5#64, wait := 6 }, fnv1a := { hashval := 6#64, wait := 1 },
    cmd1 := some 0x3_0000000000000061 }

theorem quiet_ready (w : Nat) (m : Memory) : Quiet (ready w m) := ⟨rfl, rfl, rfl, rfl, rfl, rfl⟩

theorem holds_ab (w : Nat) : holdsMessage (ready w memAb).cfg (ready w memAb).mem 0x1000 [0x61#8, 0x62#8] := by
  intro j h
  match j, h with
  | 0, _ => rfl
  | 1, _ => rfl

theorem witness_DecodeOfEncode :
    Instr.wellFormed Config.reference (.runFnv1aD (2 ^ 32 - 1) (2 ^ 32 - 1) (2 ^ 32 - 1) 1#64) = true ∧
    Instr.wellFormed Config.reference (.runFnv1 0 0 0 0#64) = true ∧
    Instr.wellFormed Config.reference (.fnv1aAbsorb 0xffffffffffffffff#64) = true := by decide

theorem witness_EncodeOfDecode :
    (∃ i, decode Config.reference .fnv1Core (2 ^ 66 - 1) = .ok i) ∧
    (∃ i, decode Config.reference .wrapper (2 ^ 162 - 1) = .ok i) := ⟨⟨_, rfl⟩, ⟨_, rfl⟩⟩

theorem witness_EveryWordIsACommand :
    2 ^ 66 - 1 < 2 ^ wordBits Config.reference .fnv1aCore ∧
    2 ^ 162 - 1 < 2 ^ wordBits Config.reference .wrapper ∧
    (0x61#64).extractLsb' 0 8 = (0xffffffffffffff61#64).extractLsb' 0 8 := by decide

theorem witness_MixingLowBits :
    63 ≤ 64 ∧ (1#64).toNat % 2 ^ 63 = (0x8000000000000001#64).toNat % 2 ^ 63 := by decide

/-- For the eight statements of one core command each: the core is ready. -/
theorem witness_CoreCommandsReady :
    (with1 5#64).ready .fnv1Core = true ∧ (with1a 5#64).ready .fnv1aCore = true := by decide

theorem witness_CommandsContinueTheHash :
    messageOf .fnv1a [.fnv1aAbsorb 0x62#64, .fnv1aNop 0#64] = some [0x62#8] ∧
    (standalone .fnv1a (with1a 0xaf63dc4c8601ec8c#64)).hashval = hashOf .fnv1a [0x61#8] fnv1aInit := by
  decide

theorem witness_CommandStreamComputesHash :
    messageOf .fnv1 [.fnv1Absorb 0x66#64, .fnv1Nop 7#64, .fnv1Absorb 0xabcdef6f#64] =
      some [0x66#8, 0x6f#8] ∧ messageOf .fnv1a [] = some [] := by decide

theorem witness_NotReadyPortWaits :
    slow.ready (Instr.fnv1Absorb 0#64).block = false ∧
    (p3 .rsp 1 0 0#64 0#64 []).ready (Instr.runFnv1 0 0 0 0#64).block = false := by decide

theorem witness_NotReadyCoreCountsDown : slow.fnv1.wait = 5 + 1 ∧ slow.fnv1a.wait = 0 + 1 := by decide

theorem witness_DigestValidAfterAcceptance :
    State.reset.cfg.mixLatency = 1 ∧
    (∃ t, exec (.fnv1Absorb 0x61#64) State.reset = .next t) ∧ State.reset.ready .fnv1Core = true ∧
    (∃ t, exec (.fnv1aInits 0x61#64) State.reset = .next t) ∧ State.reset.ready .fnv1aCore = true :=
  ⟨rfl, ⟨_, rfl⟩, rfl, ⟨_, rfl⟩, rfl⟩

theorem witness_AcceptedWordLeavesPort :
    (∃ t, State.reset.ready (Instr.fnv1Absorb 0x61#64).block = true ∧
      exec (.fnv1Absorb 0x61#64) State.reset = .next t) ∧
    (∃ t, State.reset.ready (Instr.fnv1aAbsorb 0x61#64).block = true ∧
      exec (.fnv1aAbsorb 0x61#64) State.reset = .next t) ∧
    (∃ t, exec (.fnv1Nop 0#64) State.reset = .next t ∧ ∀ d, Instr.fnv1Nop 0#64 ≠ .fnv1Absorb d) ∧
    (∃ t, exec (.fnv1aNop 0#64) State.reset = .next t ∧ ∀ d, Instr.fnv1aNop 0#64 ≠ .fnv1aAbsorb d) :=
  ⟨⟨_, rfl, rfl⟩, ⟨_, rfl, rfl⟩, ⟨_, rfl, by simp⟩, ⟨_, rfl, by simp⟩⟩

theorem witness_CoreCommandFrame :
    (∃ t, exec (.fnv1Inits 5#64) State.reset = .next t) ∧ (Instr.fnv1Inits 5#64).block = .fnv1Core ∧
    (∃ t, exec (.fnv1aInitd 5#64) State.reset = .next t) ∧ (Instr.fnv1aInitd 5#64).block = .fnv1aCore :=
  ⟨⟨_, rfl⟩, rfl, ⟨_, rfl⟩, rfl⟩

/-- For RunFnv1Starts, RunFnv1aStarts, RunFnv1DStarts and RunFnv1aDStarts: every field at its largest and
at its least. -/
theorem witness_RunStarts :
    2 ^ 32 - 1 < 2 ^ State.reset.cfg.cntW ∧ 2 ^ 32 - 1 < 2 ^ State.reset.cfg.addrW ∧
    2 ^ 32 - 1 < 2 ^ State.reset.cfg.lenW ∧ 0 < 2 ^ State.reset.cfg.cntW ∧
    State.reset.wrap.phase = .idle := by decide

theorem witness_JobFrame :
    (Instr.runFnv1aD 1 2 3 4#64).block = .wrapper ∧
    ∃ t, exec (.runFnv1aD 1 2 3 4#64) State.reset = .next t := ⟨rfl, ⟨_, rfl⟩⟩

theorem witness_StepCheckSeedsOrEnds :
    ((p3 .check 2 0 9#64 0#64 []).wrap.phase = .check ∧ (p3 .check 2 0 9#64 0#64 []).wrap.selected.wait = 0 ∧
      (p3 .check 2 0 9#64 0#64 []).wrap.cnt ≠ 0) ∧
    ((p3 .check 0 2 9#64 0#64 []).wrap.phase = .check ∧ (p3 .check 0 2 9#64 0#64 []).wrap.selected.wait = 0 ∧
      (p3 .check 0 2 9#64 0#64 []).wrap.cnt = 0) := by decide

theorem witness_StepEndOfPassChains :
    (p3 .byte 1 2 9#64 8#64 []).wrap.phase = .byte ∧ (p3 .byte 1 2 9#64 8#64 []).wrap.selected.wait = 0 ∧
    (p3 .byte 1 2 9#64 8#64 []).wrap.idx = (p3 .byte 1 2 9#64 8#64 []).wrap.len ∧
    0 < (p3 .byte 1 2 9#64 8#64 []).wrap.cnt ∧
    (p3 .byte 1 2 9#64 8#64 []).wrap.cnt < 2 ^ (p3 .byte 1 2 9#64 8#64 []).cfg.cntW := by decide

/-- Both clauses: 0x1001 is valid, and an empty memory has no valid address. -/
theorem witness_StepByteReadAddresses :
    ((p3 .byte 1 1 9#64 8#64 []).wrap.phase = .byte ∧ (p3 .byte 1 1 9#64 8#64 []).wrap.selected.wait = 0 ∧
      (p3 .byte 1 1 9#64 8#64 []).wrap.idx ≠ (p3 .byte 1 1 9#64 8#64 []).wrap.len) ∧
    Memory.valid (p3 .byte 1 1 9#64 8#64 []).mem ((0x1000 + 1) % 2 ^ 32) = true ∧
    Memory.valid ((p3 .byte 1 1 9#64 8#64 []).setMem []).mem ((0x1000 + 1) % 2 ^ 32) = false := by decide

theorem witness_StepRspAbsorbs :
    (p3 .rsp 1 1 9#64 8#64 [{ addr := 0x1001, data := none }]).wrap.phase = .rsp ∧
    requestByte (p3 .rsp 1 1 9#64 8#64 []).mem { addr := 0x1001, data := none } = some 0x62#8 ∧
    (p3 .rsp 1 1 9#64 8#64 []).wrap.idx < (p3 .rsp 1 1 9#64 8#64 []).wrap.len ∧
    (p3 .rsp 1 1 9#64 8#64 []).wrap.len < 2 ^ (p3 .rsp 1 1 9#64 8#64 []).cfg.lenW := by decide

/-- A clause each: CHECK, the end of a pass, a byte left, RSP with its answer, and a core in the middle of a
multiplication. -/
theorem witness_SequencerProgress :
    ((p3 .check 0 2 9#64 8#64 []).wrap.phase = .check ∧ (p3 .check 0 2 9#64 8#64 []).wrap.selected.wait = 0) ∧
    ((p3 .byte 1 2 9#64 8#64 []).wrap.phase = .byte ∧ (p3 .byte 1 2 9#64 8#64 []).wrap.selected.wait = 0 ∧
      (p3 .byte 1 2 9#64 8#64 []).wrap.idx = (p3 .byte 1 2 9#64 8#64 []).wrap.len) ∧
    ((p3 .byte 1 1 9#64 8#64 []).wrap.phase = .byte ∧ (p3 .byte 1 1 9#64 8#64 []).wrap.selected.wait = 0 ∧
      (p3 .byte 1 1 9#64 8#64 []).wrap.idx ≠ (p3 .byte 1 1 9#64 8#64 []).wrap.len) ∧
    ((p3 .rsp 1 0 9#64 8#64 [{ addr := 0x1000, data := none }]).wrap.phase = .rsp ∧
      (p3 .rsp 1 0 9#64 8#64 []).wrap.selected.wait = 0 ∧
      requestByte (p3 .rsp 1 0 9#64 8#64 []).mem { addr := 0x1000, data := none } = some 0x61#8) ∧
    ({ wrapReset with phase := .byte, c1 := { hashval := 5#64, wait := 5 + 1 } } : WrapperRegs).selected.wait =
      5 + 1 := by decide

theorem witness_MessageAddressWraps : 0xffffffff + 1 = 2 ^ Config.reference.addrW ∧
    (p3 .byte 1 1 9#64 8#64 []).memReqValid false = true := by decide

theorem witness_StaleResponses :
    (p3 .check 1 0 9#64 8#64 [{ addr := 3, data := none }]).wrap.phase ≠ .rsp ∧
    (p3 .rsp 1 0 9#64 8#64 [{ addr := 3, data := some 1#8 }]).wrap.phase = .rsp ∧
    (p3 .rsp 1 0 9#64 8#64 [{ addr := 3, data := some 1#8 }]).inflight = { addr := 3, data := some 1#8 } :: [] := by
  decide

theorem witness_ResetKeepsWordsAndReads :
    (∃ t, runEvent (.reset .fnv1Core) slow = .next t) ∧
    slow.port .fnv1Core = some 0x3_0000000000000061 ∧
    ∃ i, decode slow.cfg .fnv1Core 0x3_0000000000000061 = .ok i := ⟨⟨_, rfl⟩, rfl, ⟨_, rfl⟩⟩

theorem witness_StepRunsDecodedInstruction :
    nextEvent (ready 0x2_00000002_00001000_00000002_0000000000000000 memAb) = .edge .wrapper ∧
    (ready 0x2_00000002_00001000_00000002_0000000000000000 memAb).ready .wrapper = true ∧
    decode Config.reference .wrapper 0x2_00000002_00001000_00000002_0000000000000000 =
      .ok (.runFnv1D 2 0x1000 2 0#64) := ⟨rfl, rfl, rfl⟩

theorem witness_PresentedWordRunsNext :
    decode State.reset.cfg .fnv1aCore 0x3_0000000000000061 = .ok (.fnv1aAbsorb 0x61#64) := rfl

/-- P3 row 3, and its next state. -/
theorem witness_StepKeepsInvariant :
    (p3 .byte 2 0 9#64 9#64 []).Inv ∧ ∃ t, step (p3 .byte 2 0 9#64 9#64 []) = .next t := by
  refine ⟨⟨by decide, ?_, by decide, by decide, by decide⟩, _, rfl⟩
  constructor <;> decide

theorem witness_HardwareNeverWritesMemory :
    (∃ t, step (p3 .byte 2 0 9#64 9#64 []) = .next t) ∧
    nextEvent (p3 .byte 2 0 9#64 9#64 []) = .edge .wrapper := ⟨⟨_, rfl⟩, rfl⟩

theorem witness_HostWriteChangesOneLocation : 2 ^ 32 - 1 < 2 ^ State.reset.cfg.addrW := by decide

/-- For RegistersChangeByOwnEvents: a pause, which is no module's own event, and an edge at an idle module. -/
theorem witness_RegistersChangeByOwnEvents :
    (nextEvent State.reset = .pause ∧ ∃ t, step State.reset = .next t) ∧
    (nextEvent { State.reset with schedule := [.edge .wrapper] } = .edge .wrapper ∧
      State.reset.ready .wrapper = true ∧ State.reset.port .wrapper = none) := ⟨⟨rfl, ⟨_, rfl⟩⟩, rfl, rfl, rfl⟩

theorem witness_RunningJobUndisturbed :
    (∃ t, step (p3 .byte 2 0 9#64 9#64 []) = .next t) ∧ (p3 .byte 2 0 9#64 9#64 []).wrap.phase ≠ .idle ∧
    nextEvent (p3 .byte 2 0 9#64 9#64 []) ≠ .reset .wrapper := ⟨⟨_, rfl⟩, by decide, by decide⟩

/-- A clause each: a job that ends, a job that starts while `DONE` is set (so from `PHASE = IDLE`), and an idle
wrapper that meets a stray response. -/
theorem witness_DoneAndChainChangeOnlyAsStated :
    (∃ t, step (p3 .check 0 2 9#64 9#64 []) = .next t ∧ t.wrap.done = true ∧
      (p3 .check 0 2 9#64 9#64 []).wrap.done = false) ∧
    (∃ t, step { ready 0x2_00000002_00001000_00000002_0000000000000000 memAb with
        wrap := { wrapReset with done := true } } = .next t ∧ t.wrap.done = false) ∧
    (∃ t, step { State.reset with schedule := [.stray 7#8] } = .next t ∧ State.reset.wrap.phase = .idle) :=
  ⟨⟨_, rfl, rfl, rfl⟩, ⟨_, rfl, rfl⟩, ⟨_, rfl, rfl⟩⟩

theorem witness_ReadsOnlyMessageBytes :
    ∃ t, step (p3 .byte 2 0 9#64 9#64 []) = .next t ∧
      (p3 .byte 2 0 9#64 9#64 []).inflight.length < t.inflight.length := ⟨_, rfl, by decide⟩

theorem witness_JobPortIgnoredWhileBusy :
    (p3 .check 2 0 9#64 9#64 []).wrap.phase ≠ .idle ∧
    ∃ t, runEvent (.edge .wrapper) (p3 .check 2 0 9#64 9#64 []) = .next t := ⟨by decide, ⟨_, rfl⟩⟩

theorem witness_EdgesOfModulesCommute :
    (∃ t, runEvent (edgeOf false .fnv1Core) slow = .next t) ∧
    (∃ u, runEvent (edgeOf true .wrapper) slow = .next u) ∧ Block.fnv1Core ≠ Block.wrapper :=
  ⟨⟨_, rfl⟩, ⟨_, rfl⟩, by decide⟩

/-- The first part: the START event of P3. -/
theorem witness_JobInvariantsHold_start (w : Nat) :
    2 < 2 ^ (ready w memAb).cfg.cntW ∧ 0x1000 < 2 ^ (ready w memAb).cfg.addrW ∧
    [0x61#8, 0x62#8].length < 2 ^ (ready w memAb).cfg.lenW ∧ (ready w memAb).wrap.phase = .idle ∧
    (ready w memAb).inflight = [] ∧
    (0 < 2 → holdsMessage (ready w memAb).cfg (ready w memAb).mem 0x1000 [0x61#8, 0x62#8]) ∧
    ∃ t, exec (runInstr .fnv1 true 2 0x1000 2 0#64) (ready w memAb) = .next t :=
  ⟨by show 2 < 2 ^ 32; decide, by show 0x1000 < 2 ^ 32; decide, by show 2 < 2 ^ 32; decide, rfl, rfl,
    fun _ => holds_ab w, _, rfl⟩

/-- The second part: P3 row 3, whose byte has not been answered yet, with the default event and with a host write just
past the message. -/
theorem witness_JobInvariantsHold_step :
    JobInv .fnv1 2 0x1000 [0x61#8, 0x62#8] fnv1Init { hashval := 0xcbf29ce484222325#64, wait := 0 }
      (p3 .rsp 2 0 fnv1Init fnv1Init [{ addr := 0x1000, data := none }]) ∧
    undisturbing Config.reference 0x1000 2
      (nextEvent (p3 .rsp 2 0 fnv1Init fnv1Init [{ addr := 0x1000, data := none }])) ∧
    undisturbing Config.reference 0x1000 2 (.writeMsg 0x1002 0x63#8) ∧
    undisturbing Config.reference 0x1000 2 (.freeMsg 0xfff) := by
  refine ⟨?_, trivial, ⟨by decide, by decide⟩, ⟨by decide, by decide⟩⟩
  constructor
  case one_read => exact fun _ => ⟨by decide, _, rfl, by decide, .inl rfl⟩
  case message => exact fun _ => holds_ab 0
  all_goals decide

/-- The steps of P3 before its end, the first and the last (13 steps follow START). -/
theorem witness_JobComputesRepeatedHash_steps :
    1 ≤ 1 ∧ 1 < 1 + jobSteps Config.reference 2 2 ∧ 13 < 1 + jobSteps Config.reference 2 2 ∧
    ¬ 14 < 1 + jobSteps Config.reference 2 2 := by decide

/-- P3 from its START, and a job with `COUNT = 0` that needs no memory (V107). -/
theorem witness_JobComputesRepeatedHash :
    (ready (encode Config.reference (runInstr .fnv1 true 2 0x1000 2 0#64)) memAb).cfg.wf = true ∧
    Quiet (ready (encode Config.reference (runInstr .fnv1 true 2 0x1000 2 0#64)) memAb) ∧
    2 < 2 ^ Config.reference.cntW ∧ 0x1000 < 2 ^ Config.reference.addrW ∧
    [0x61#8, 0x62#8].length < 2 ^ Config.reference.lenW ∧ wrapReset.phase = .idle ∧
    wrapReset.c1.wait = 0 ∧ wrapReset.c1a.wait = 0 ∧
    holdsMessage Config.reference memAb 0x1000 [0x61#8, 0x62#8] ∧
    Quiet (ready (encode Config.reference (runInstr .fnv1 false 0 0xdead0000 5 0x1122334455667788#64)) []) :=
  ⟨by decide, quiet_ready _ _, by decide, by decide, by decide, rfl, rfl, rfl, holds_ab 0, quiet_ready _ _⟩

/-- V116: two good bytes, then an address that is not valid. -/
theorem witness_InvalidAddressEndsInMsgFault :
    Quiet (ready (encode Config.reference (runInstr .fnv1 true 1 0x1000 3 0#64)) memAb) ∧
    [0x61#8, 0x62#8].length < 3 ∧ 3 < 2 ^ Config.reference.lenW ∧ 0 < 1 ∧
    1 < 2 ^ Config.reference.cntW ∧ 0x1000 < 2 ^ Config.reference.addrW ∧ wrapReset.phase = .idle ∧
    wrapReset.c1.wait = 0 ∧ wrapReset.c1a.wait = 0 ∧ Config.reference.wf = true ∧
    holdsMessage Config.reference memAb 0x1000 [0x61#8, 0x62#8] ∧
    Memory.valid memAb ((0x1000 + 2) % 2 ^ 32) = false :=
  ⟨quiet_ready _ _, by decide, by decide, by decide, by decide, by decide, rfl, rfl, rfl, by decide,
    holds_ab 0, by decide⟩

theorem witness_MemoryAndCommandsAgree :
    Quiet (ready (encode Config.reference (runInstr .fnv1a false 1 0x1000 2 0#64)) memAb) ∧
    [0x61#8, 0x62#8].length < 2 ^ Config.reference.lenW ∧ 0x1000 < 2 ^ Config.reference.addrW ∧
    wrapReset.phase = .idle ∧ wrapReset.c1.wait = 0 ∧ wrapReset.c1a.wait = 0 ∧
    Config.reference.wf = true ∧ holdsMessage Config.reference memAb 0x1000 [0x61#8, 0x62#8] :=
  ⟨quiet_ready _ _, by decide, by decide, rfl, rfl, rfl, by decide, holds_ab 0⟩

end Sys2Proof.Tests
end

/-! # The whole machine: the proofs

One rule for an accepted word, and what the start of a step leaves of a port. -/
namespace Sys2Proof.Machine

/-! ## Accepting a word -/

@[simp] theorem State.begin_port (s : State) (b : Block) : s.begin.port b = s.port b := by
  cases b <;> rfl

@[simp] theorem State.begin_ready (s : State) (b : Block) : s.begin.ready b = s.ready b := by
  cases b <;> rfl

/-- A word that decodes is executed (R86). -/
theorem runWord_decoded {b : Block} {w : Nat} {i : Instr} {s : State} (hd : decode s.cfg b w = .ok i) :
    runWord b w s = exec i s := by
  simp only [runWord, hd]

/-- An edge at a ready block accepts the word on its port and executes it (R90, R91). -/
theorem runEdge_accepts {b : Block} {w : Nat} {i : Instr} {s : State} (hr : s.ready b = true)
    (hp : s.port b = some w) (hd : decode s.cfg b w = .ok i) : runEdge b s = exec i s := by
  simp only [runEdge, hr, hp, if_true, runWord_decoded hd]

/-! ## The statements -/

/-- Settles O45: the step is the edge's, and the start of a step changes neither readiness, port nor
configuration, so the edge accepts the word. -/
theorem stepRunsDecodedInstruction : Obligations.StepRunsDecodedInstruction := by
  unfold Obligations.StepRunsDecodedInstruction
  intro b w i s he hr hp hd
  calc step s = runEdge b s.begin := by rw [step_eq, he, runEvent_edge]
    _ = exec i s.begin := runEdge_accepts (by simpa using hr) (by simpa using hp) hd

end Sys2Proof.Machine

/-! # The state: the proofs

What a core command leaves of its core, the sequencer's steps as equations, and two inversions of a step: the part
of the state that it writes (`StepFrame`) and what becomes of the wrapper's registers (`WrapperStep`). -/
namespace Sys2Proof.Machine

/-! ## Core commands (spec/10_state.md R22) -/

@[simp] theorem coreNop_wait (c : CoreRegs) : (coreNop c).wait = c.wait := rfl
@[simp] theorem coreInitd_wait (v : Variant) (c : CoreRegs) : (coreInitd v c).wait = c.wait := rfl
@[simp] theorem coreInits_wait (seed : Word) (c : CoreRegs) : (coreInits seed c).wait = c.wait := rfl
@[simp] theorem coreAbsorb_wait (cfg : Config) (v : Variant) (data : Word) (c : CoreRegs) :
    (coreAbsorb cfg v data c).wait = cfg.mixLatency - 1 := rfl

/-- One cycle of the countdown (log 8). -/
theorem coreWait_of_wait {c : CoreRegs} {k : Nat} (h : c.wait = k + 1) :
    coreWait c = { hashval := c.hashval, wait := k } := by
  simp [coreWait, h]

/-- A command of the fnv1_hash_core is the acceptance of an update that holds a ready core not ready for no longer
than an `ABSORB` does. -/
theorem exec_eq_acceptFnv1 {i : Instr} (hb : i.block = .fnv1Core) (s : State) :
    ∃ f, exec i s = acceptFnv1 f s ∧ ∀ c : CoreRegs, c.wait = 0 → (f c).wait ≤ s.cfg.mixLatency - 1 := by
  cases i with
  | fnv1Nop => exact ⟨coreNop, rfl, fun c h => by simp [h]⟩
  | fnv1Initd => exact ⟨coreInitd .fnv1, rfl, fun c h => by simp [h]⟩
  | fnv1Inits seed => exact ⟨coreInits seed, rfl, fun c h => by simp [h]⟩
  | fnv1Absorb data => exact ⟨coreAbsorb s.cfg .fnv1 data, rfl, fun c _ => Nat.le_refl _⟩
  | _ => cases hb

/-- The same of a command of the fnv1a_hash_core. -/
theorem exec_eq_acceptFnv1a {i : Instr} (hb : i.block = .fnv1aCore) (s : State) :
    ∃ f, exec i s = acceptFnv1a f s ∧ ∀ c : CoreRegs, c.wait = 0 → (f c).wait ≤ s.cfg.mixLatency - 1 := by
  cases i with
  | fnv1aNop => exact ⟨coreNop, rfl, fun c h => by simp [h]⟩
  | fnv1aInitd => exact ⟨coreInitd .fnv1a, rfl, fun c h => by simp [h]⟩
  | fnv1aInits seed => exact ⟨coreInits seed, rfl, fun c h => by simp [h]⟩
  | fnv1aAbsorb data => exact ⟨coreAbsorb s.cfg .fnv1a data, rfl, fun c _ => Nat.le_refl _⟩
  | _ => cases hb

theorem acceptFnv1_frame {f : CoreRegs → CoreRegs} {s t : State} (h : acceptFnv1 f s = .next t) :
    sameOutsideFnv1 s t := by
  obtain ⟨_, rfl⟩ | ⟨_, rfl⟩ := acceptFnv1_cases h <;> simp [sameOutsideFnv1, sameMemory]

theorem acceptFnv1a_frame {f : CoreRegs → CoreRegs} {s t : State} (h : acceptFnv1a f s = .next t) :
    sameOutsideFnv1a s t := by
  obtain ⟨_, rfl⟩ | ⟨_, rfl⟩ := acceptFnv1a_cases h <;> simp [sameOutsideFnv1a, sameMemory]

/-- With `MIX_LATENCY = 1` the fnv1_hash_core is ready right after it accepts a command. -/
theorem exec_fnv1_ready_again {i : Instr} {s t : State} (hb : i.block = .fnv1Core) (hl : s.cfg.mixLatency = 1)
    (hr : s.fnv1.wait = 0) (h : exec i s = .next t) : t.fnv1.wait = 0 := by
  obtain ⟨f, he, hf⟩ := exec_eq_acceptFnv1 hb s
  rw [he, acceptFnv1_ready hr] at h
  cases h
  have := hf s.fnv1 hr
  simpa [hl] using this

/-- The same of the fnv1a_hash_core. -/
theorem exec_fnv1a_ready_again {i : Instr} {s t : State} (hb : i.block = .fnv1aCore) (hl : s.cfg.mixLatency = 1)
    (hr : s.fnv1a.wait = 0) (h : exec i s = .next t) : t.fnv1a.wait = 0 := by
  obtain ⟨f, he, hf⟩ := exec_eq_acceptFnv1a hb s
  rw [he, acceptFnv1a_ready hr] at h
  cases h
  have := hf s.fnv1a hr
  simpa [hl] using this

/-! ## Edges -/

/-- A ready block without a word on its port spends the edge on nothing (R90). -/
theorem runEdge_no_word {b : Block} {s : State} (hr : s.ready b = true) (hp : s.port b = none) :
    runEdge b s = .next s := by
  simp only [runEdge, hr, hp, if_true]

theorem runEdge_not_ready {b : Block} {s : State} (hr : s.ready b = false) : runEdge b s = busyEdge b s := by
  simp [runEdge, hr]

/-! ## The sequencer, one equation per step (R175 to R177, R179) -/

theorem sequencerEdge_waits {s : State} (hw : s.wrap.selected.wait ≠ 0) :
    sequencerEdge s = .next (s.setWrap (s.wrap.setCore s.wrap.var (coreWait s.wrap.selected))) := by
  simp [sequencerEdge, hw]

theorem sequencerEdge_check {s : State} (hw : s.wrap.selected.wait = 0) (hp : s.wrap.phase = .check) :
    sequencerEdge s = .next (s.setWrap (stepCheck s.wrap)) := by
  simp [sequencerEdge, hw, hp]

theorem sequencerEdge_endOfPass {s : State} (hw : s.wrap.selected.wait = 0) (hp : s.wrap.phase = .byte)
    (hi : s.wrap.idx = s.wrap.len) : sequencerEdge s = .next (s.setWrap (stepEndOfPass s.cfg s.wrap)) := by
  simp [sequencerEdge, hw, hp, hi]

theorem sequencerEdge_byteRead {s : State} (hw : s.wrap.selected.wait = 0) (hp : s.wrap.phase = .byte)
    (hi : s.wrap.idx ≠ s.wrap.len) : sequencerEdge s = stepByteRead s := by
  simp [sequencerEdge, hw, hp, hi]

theorem sequencerEdge_rsp {s : State} (hw : s.wrap.selected.wait = 0) (hp : s.wrap.phase = .rsp) :
    sequencerEdge s = .next s := by
  simp [sequencerEdge, hw, hp]

theorem stepByteRead_valid {s : State} (hv : Memory.valid s.mem s.memAddr = true) :
    stepByteRead s = .next ((s.setWrap { s.wrap with phase := .rsp }).setInflight
      (s.inflight ++ [{ addr := s.memAddr, data := none }])) := by
  simp [stepByteRead, hv]

/-- The sequencer neither reads nor writes the job port (R25). -/
theorem sequencerEdge_setPort {s t : State} (p : Option Nat) (hp : s.wrap.phase ≠ .idle)
    (h : sequencerEdge s = .next t) :
    sequencerEdge (s.setPort .wrapper p) = .next (t.setPort .wrapper p) := by
  obtain ⟨hw, rfl⟩ | ⟨hw, ⟨hi, _⟩ | ⟨hc, rfl⟩ | ⟨hb, hl, rfl⟩ | ⟨hb, hl, hv, rfl⟩ | ⟨hr, ht⟩⟩ :=
    sequencerEdge_cases h
  · exact sequencerEdge_waits (s := s.setPort .wrapper p) hw
  · exact absurd hi hp
  · exact sequencerEdge_check (s := s.setPort .wrapper p) hw hc
  · exact sequencerEdge_endOfPass (s := s.setPort .wrapper p) hw hb hl
  · exact (sequencerEdge_byteRead (s := s.setPort .wrapper p) hw hb hl).trans
      (stepByteRead_valid (s := s.setPort .wrapper p) hv)
  · exact ht ▸ sequencerEdge_rsp (s := s.setPort .wrapper p) hw hr

/-- A busy edge at the wrapper writes its registers and the list of reads, nothing else. -/
theorem sequencerEdge_writes {s t : State} (h : sequencerEdge s = .next t) :
    ∃ w q, t = (s.setWrap w).setInflight q := by
  obtain ⟨_, ht⟩ | ⟨_, ⟨_, ht⟩ | ⟨_, ht⟩ | ⟨_, _, ht⟩ | ⟨_, _, _, ht⟩ | ⟨_, ht⟩⟩ := sequencerEdge_cases h
  · exact ⟨s.wrap.setCore s.wrap.var (coreWait s.wrap.selected), s.inflight, ht⟩
  · exact ⟨s.wrap, s.inflight, ht⟩
  · exact ⟨stepCheck s.wrap, s.inflight, ht⟩
  · exact ⟨stepEndOfPass s.cfg s.wrap, s.inflight, ht⟩
  · exact ⟨_, _, ht⟩
  · exact ⟨s.wrap, s.inflight, ht⟩

/-- A response writes the wrapper's registers and the list of reads, nothing else. -/
theorem respondOldest_writes {s t : State} (h : respondOldest s = .next t) :
    ∃ w q, t = (s.setWrap w).setInflight q := by
  obtain ⟨_, ht⟩ | ⟨_, q, _, _, ht⟩ | ⟨_, q, b, _, _, _, ht⟩ := respondOldest_cases h
  · exact ⟨s.wrap, s.inflight, ht⟩
  · exact ⟨s.wrap, q, ht⟩
  · exact ⟨stepRsp s.cfg b s.wrap, q, ht⟩

theorem takeResponse_writes (b : Byte) (s : State) : ∃ w, takeResponse b s = s.setWrap w := by
  by_cases h : s.wrap.phase = .rsp
  · exact ⟨_, takeResponse_rsp h⟩
  · exact ⟨s.wrap, takeResponse_ignored h⟩

/-! ## The part of the state that a step writes -/

/-- What a step from `s` to `t` can write, by the module or the outside party that takes the event. -/
inductive StepFrame (s t : State) : Prop where
  | core1 (c : CoreRegs) (p : Option Nat)
      (he : nextEvent s = .edge .fnv1Core ∨ nextEvent s = .reset .fnv1Core)
      (ht : t = (s.begin.setFnv1 c).setPort .fnv1Core p)
  | core1a (c : CoreRegs) (p : Option Nat)
      (he : nextEvent s = .edge .fnv1aCore ∨ nextEvent s = .reset .fnv1aCore)
      (ht : t = (s.begin.setFnv1a c).setPort .fnv1aCore p)
  /-- A START event (R171 to R174): the wrapper and its port. -/
  | start (w : WrapperRegs) (he : nextEvent s = .edge .wrapper) (hp : s.wrap.phase = .idle)
      (ht : t = (s.begin.setWrap w).setPort .wrapper none)
  /-- Any other event of the wrapper. -/
  | wrapper (w : WrapperRegs) (q : List MemRequest)
      (he : nextEvent s = .edge .wrapper ∨ nextEvent s = .reset .wrapper ∨ nextEvent s = .respond ∨
        ∃ b, nextEvent s = .stray b)
      (ht : t = (s.begin.setWrap w).setInflight q)
  /-- The host's memory and the memory port. -/
  | memory (m : Memory) (q : List MemRequest) (ht : t = (s.begin.setMem m).setInflight q)
  /-- The host drives a port. -/
  | port (b : Block) (p : Option Nat) (he : (∃ w, nextEvent s = .present b w) ∨ nextEvent s = .withdraw b)
      (ht : t = s.begin.setPort b p)

theorem step_frame {s t : State} (h : step s = .next t) : StepFrame s t := by
  cases step_cases h with
  | core1 c p he ht => exact .core1 c p he ht
  | core1a c p he ht => exact .core1a c p he ht
  | wrapReset he ht => exact .wrapper wrapReset s.inflight (.inr (.inl he)) ht
  | start v k n b l he hp _ ht => exact .start _ he hp ht
  | job he _ hx =>
    obtain ⟨w, q, ht⟩ := sequencerEdge_writes hx
    exact .wrapper w q (.inl he) ht
  | respond he hx =>
    obtain ⟨w, q, ht⟩ := respondOldest_writes hx
    exact .wrapper w q (.inr (.inr (.inl he))) ht
  | stray b he ht =>
    obtain ⟨w, hw⟩ := takeResponse_writes b s.begin
    exact .wrapper w s.inflight (.inr (.inr (.inr ⟨b, he⟩))) (ht.trans hw)
  | sample _ _ ht => exact .memory s.mem _ ht
  | flush _ ht => exact .memory s.mem _ ht
  | write a b _ _ ht => exact .memory (Memory.write s.mem a b) s.inflight ht
  | free a _ _ ht => exact .memory (Memory.free s.mem a) s.inflight ht
  | port b p he ht => exact .port b p he ht
  | nothing _ ht => exact .memory s.mem s.inflight ht

theorem step_cfg {s t : State} (h : step s = .next t) : t.cfg = s.cfg := by
  cases step_frame h with
  | core1 _ _ _ ht | core1a _ _ _ ht | start _ _ _ ht | wrapper _ _ _ ht | memory _ _ ht | port _ _ _ ht =>
    simp [ht]

theorem step_keeps_fnv1 {s t : State} (h : step s = .next t) (he : nextEvent s ≠ .edge .fnv1Core)
    (hr : nextEvent s ≠ .reset .fnv1Core) : t.fnv1 = s.fnv1 := by
  cases step_frame h with
  | core1 _ _ hown => exact (hown.elim he hr).elim
  | core1a _ _ _ ht | start _ _ _ ht | wrapper _ _ _ ht | memory _ _ ht | port _ _ _ ht => simp [ht]

theorem step_keeps_fnv1a {s t : State} (h : step s = .next t) (he : nextEvent s ≠ .edge .fnv1aCore)
    (hr : nextEvent s ≠ .reset .fnv1aCore) : t.fnv1a = s.fnv1a := by
  cases step_frame h with
  | core1a _ _ hown => exact (hown.elim he hr).elim
  | core1 _ _ _ ht | start _ _ _ ht | wrapper _ _ _ ht | memory _ _ ht | port _ _ _ ht => simp [ht]

theorem step_keeps_wrap {s t : State} (h : step s = .next t) (he : nextEvent s ≠ .edge .wrapper)
    (hr : nextEvent s ≠ .reset .wrapper) (ha : nextEvent s ≠ .respond) (hs : ∀ b, nextEvent s ≠ .stray b) :
    t.wrap = s.wrap := by
  cases step_frame h with
  | start _ hown => exact absurd hown he
  | wrapper _ _ hown =>
    obtain h' | h' | h' | ⟨b, h'⟩ := hown
    · exact absurd h' he
    · exact absurd h' hr
    · exact absurd h' ha
    · exact absurd h' (hs b)
  | core1 _ _ _ ht | core1a _ _ _ ht | memory _ _ ht | port _ _ _ ht => simp [ht]

/-- A busy wrapper leaves the job on its port, which only the host then changes (R91). -/
theorem step_keeps_job {s t : State} (h : step s = .next t) (hp : s.wrap.phase ≠ .idle)
    (hh : ∀ w, nextEvent s ≠ .present .wrapper w) (hd : nextEvent s ≠ .withdraw .wrapper) : t.job = s.job := by
  cases step_frame h with
  | start _ _ hidle => exact absurd hidle hp
  | port b _ hown ht =>
    cases b with
    | wrapper => exact (hown.elim (fun ⟨w, hw⟩ => hh w hw) hd).elim
    | fnv1Core | fnv1aCore => simp [ht]
  | core1 _ _ _ ht | core1a _ _ _ ht | wrapper _ _ _ ht | memory _ _ ht => simp [ht]

/-! ## What becomes of the wrapper's registers -/

/-- What a step from `s` to `t` can do to the wrapper: nothing, its reset, a START event, or one of the steps of a
running job. -/
inductive WrapperStep (s t : State) : Prop where
  | kept (ht : t.wrap = s.wrap)
  | reset (he : nextEvent s = .reset .wrapper) (ht : t.wrap = wrapReset)
  /-- A START event, with the job on the port that causes it. -/
  | start (v : Variant) (k : Word) (n b l : Nat) (he : nextEvent s = .edge .wrapper)
      (hp : s.wrap.phase = .idle)
      (hx : ∃ w i, s.job = some w ∧ decode s.cfg .wrapper w = .ok i ∧ exec i s.begin = .next t)
      (ht : t.wrap = startRegs s.cfg v k n b l s.wrap)
  /-- A cycle of the selected core's multiplication (log 8). -/
  | coreCycle (hp : s.wrap.phase ≠ .idle)
      (ht : t.wrap = s.wrap.setCore s.wrap.var (coreWait s.wrap.selected))
  | check (he : nextEvent s = .edge .wrapper) (hp : s.wrap.phase = .check) (ht : t.wrap = stepCheck s.wrap)
  | endOfPass (hp : s.wrap.phase = .byte) (ht : t.wrap = stepEndOfPass s.cfg s.wrap)
  | byteRead (hp : s.wrap.phase = .byte) (ht : t.wrap = { s.wrap with phase := .rsp })
  | rsp (b : Byte) (hp : s.wrap.phase = .rsp) (ht : t.wrap = stepRsp s.cfg b s.wrap)

theorem step_wrapper {s t : State} (h : step s = .next t) : WrapperStep s t := by
  cases step_cases h with
  | wrapReset he ht => exact .reset he (by simp [ht])
  | start v k n b l he hp hx ht => exact .start v k n b l he hp hx (by simp [ht])
  | job he hp hx =>
    obtain ⟨_, rfl⟩ | ⟨_, ⟨hi, _⟩ | ⟨hc, rfl⟩ | ⟨hb, _, rfl⟩ | ⟨hb, _, _, rfl⟩ | ⟨_, rfl⟩⟩ :=
      sequencerEdge_cases hx
    · exact .coreCycle hp rfl
    · exact absurd hi hp
    · exact .check he hc rfl
    · exact .endOfPass hb rfl
    · exact .byteRead hb rfl
    · exact .kept rfl
  | respond _ hx =>
    obtain ⟨_, rfl⟩ | ⟨_, _, _, _, rfl⟩ | ⟨_, _, b, _, hp, _, rfl⟩ := respondOldest_cases hx
    · exact .kept rfl
    · exact .kept rfl
    · exact .rsp b hp rfl
  | stray b _ ht =>
    by_cases hp : s.wrap.phase = .rsp
    · exact .rsp b hp (by simp [ht, takeResponse_rsp, hp])
    · exact .kept (by rw [ht, takeResponse_ignored (s := s.begin) hp, State.begin_wrap])
  | core1 _ _ _ ht | core1a _ _ _ ht | sample _ _ ht | flush _ ht | write _ _ _ _ ht | free _ _ _ ht
  | port _ _ _ ht | nothing _ ht => exact .kept (by simp [ht])

/-- Step CHECK leaves the core the job does not use. -/
theorem stepCheck_other (w : WrapperRegs) :
    (stepCheck w).core (otherVariant w.var) = w.core (otherVariant w.var) := by
  by_cases h : w.cnt = 0
  · rw [stepCheck_ends h]
    cases w.var <;> rfl
  · obtain ⟨_, _, _, _, hother⟩ := stepCheck_seeds h
    exact hother

/-- A running job keeps `VAR`, `BASE`, `LEN` and the core it does not use (R33, R180 items 5 and 7). -/
theorem step_keeps_job_regs {s t : State} (h : step s = .next t) (hp : s.wrap.phase ≠ .idle)
    (hr : nextEvent s ≠ .reset .wrapper) :
    t.wrap.core (otherVariant s.wrap.var) = s.wrap.core (otherVariant s.wrap.var) ∧
    t.wrap.var = s.wrap.var ∧ t.wrap.base = s.wrap.base ∧ t.wrap.len = s.wrap.len := by
  cases step_wrapper h with
  | kept ht => simp [ht]
  | reset he => exact absurd he hr
  | start _ _ _ _ _ _ hidle => exact absurd hidle hp
  | coreCycle _ ht => simp [ht, WrapperRegs.core_setCore_other _ _ (otherVariant_ne s.wrap.var)]
  | check _ _ ht => simp [ht, stepCheck_other]
  | endOfPass _ ht => exact ht ▸ ⟨stepEndOfPass_core .., rfl, rfl, rfl⟩
  | byteRead _ ht => exact ht ▸ ⟨by cases s.wrap.var <;> rfl, rfl, rfl, rfl⟩
  | rsp b _ ht => simp [ht, stepRsp_other]

/-- `DONE` is set by step CHECK with `CNT = 0` only, which ends the job and leaves `CHAIN`. -/
theorem step_sets_done {s t : State} (h : step s = .next t) (h0 : s.wrap.done = false) (h1 : t.wrap.done = true) :
    nextEvent s = .edge .wrapper ∧ s.wrap.phase = .check ∧ s.wrap.cnt = 0 ∧ t.wrap.phase = .idle ∧
    t.wrap.chain = s.wrap.chain := by
  cases step_wrapper h with
  | check he hp ht =>
    by_cases hc : s.wrap.cnt = 0
    · exact ⟨he, hp, hc, by simp [ht, stepCheck_ends hc], by simp [ht]⟩
    · obtain ⟨_, _, hd, _⟩ := stepCheck_seeds hc
      simp [ht, hd, h0] at h1
  | reset _ ht => simp [ht, wrapReset] at h1
  | start _ _ _ _ _ _ _ _ ht => simp [ht, startRegs] at h1
  | kept ht | coreCycle _ ht | byteRead _ ht | rsp _ _ ht => simp [ht, h0] at h1
  | endOfPass _ ht => simp [ht, stepEndOfPass, h0] at h1

/-- `DONE` is cleared by a reset of the wrapper and by a START event only. -/
theorem step_clears_done {s t : State} (h : step s = .next t) (h1 : s.wrap.done = true)
    (h0 : t.wrap.done = false) :
    nextEvent s = .reset .wrapper ∨
    (nextEvent s = .edge .wrapper ∧ s.wrap.phase = .idle ∧ t.wrap.phase = .check) := by
  cases step_wrapper h with
  | reset he => exact .inl he
  | start _ _ _ _ _ he hp _ ht => exact .inr ⟨he, hp, by rw [ht]; rfl⟩
  | check _ _ ht =>
    by_cases hc : s.wrap.cnt = 0
    · simp [ht, stepCheck_ends hc] at h0
    · obtain ⟨_, _, hd, _⟩ := stepCheck_seeds hc
      simp [ht, hd, h1] at h0
  | kept ht | coreCycle _ ht | byteRead _ ht | rsp _ _ ht => simp [ht, h1] at h0
  | endOfPass _ ht => simp [ht, stepEndOfPass, h1] at h0

/-- An idle wrapper keeps every register until its reset or the START event of the job on its port (R184). -/
theorem step_idle_wrapper {s t : State} (h : step s = .next t) (hp : s.wrap.phase = .idle)
    (hr : nextEvent s ≠ .reset .wrapper) :
    t.wrap = s.wrap ∨
    (nextEvent s = .edge .wrapper ∧ t.wrap.phase = .check ∧
      ∃ w i, s.job = some w ∧ decode s.cfg .wrapper w = .ok i ∧ exec i s.begin = .next t) := by
  cases step_wrapper h with
  | kept ht => exact .inl ht
  | reset he => exact absurd he hr
  | start _ _ _ _ _ he _ hx ht => exact .inr ⟨he, by rw [ht]; rfl, hx⟩
  | coreCycle hbusy => exact absurd hp hbusy
  | check _ hc | endOfPass hc | byteRead hc | rsp _ hc => simp [hp] at hc

/-! ## The invariant after reset (R29, R180) -/

/-- The wrapper's registers after reset are in range at every configuration. -/
theorem wrapReset_inv (cfg : Config) : WrapperInv cfg wrapReset where
  cnt_fits := Nat.two_pow_pos _
  base_fits := Nat.two_pow_pos _
  len_fits := Nat.two_pow_pos _
  idx_le := Nat.le_refl _
  pass_left := by decide
  reading := by decide
  running := by decide
  other_ready := rfl
  selected_ready := fun _ => rfl

/-! ## The statements -/

/-- Settles O26: no command holds a ready core longer than an `ABSORB`, so for no cycle at `MIX_LATENCY = 1`. -/
theorem digestValidAfterAcceptance : Obligations.DigestValidAfterAcceptance := by
  unfold Obligations.DigestValidAfterAcceptance
  intro i s t hl h
  refine ⟨fun hb hr => ?_, fun hb hr => ?_⟩
  · have hw : t.fnv1.wait = 0 := exec_fnv1_ready_again hb hl (by simpa using hr) h
    exact ⟨by simp [State.cmdReady1, cmdReady, hw], digestOf_ready hw _ _⟩
  · have hw : t.fnv1a.wait = 0 := exec_fnv1a_ready_again hb hl (by simpa using hr) h
    exact ⟨by simp [State.cmdReady1a, cmdReady, hw], digestOf_ready hw _ _⟩

/-- Settles O28: each command is an acceptance, and an acceptance writes its core and port only. -/
theorem coreCommandFrame : Obligations.CoreCommandFrame := by
  unfold Obligations.CoreCommandFrame
  intro i s t h
  refine ⟨fun hb => ?_, fun hb => ?_⟩
  · obtain ⟨f, he, _⟩ := exec_eq_acceptFnv1 hb s
    exact acceptFnv1_frame (he.symm.trans h)
  · obtain ⟨f, he, _⟩ := exec_eq_acceptFnv1a hb s
    exact acceptFnv1a_frame (he.symm.trans h)

/-- Settles O51: by the part of the state that a step writes, and by the edge without a word. -/
theorem registersChangeByOwnEvents : Obligations.RegistersChangeByOwnEvents := by
  unfold Obligations.RegistersChangeByOwnEvents
  refine ⟨fun s t h => ⟨step_keeps_fnv1 h, step_keeps_fnv1a h, step_keeps_wrap h, step_cfg h⟩, ?_⟩
  intro b s he hr hp
  calc step s = runEdge b s.begin := by rw [step_eq, he, runEvent_edge]
    _ = .next s.begin := runEdge_no_word (by simpa using hr) (by simpa using hp)

/-- Settles O52: by what a step does to the wrapper's registers, and by who writes the job port. -/
theorem runningJobUndisturbed : Obligations.RunningJobUndisturbed := by
  unfold Obligations.RunningJobUndisturbed
  intro s t h hp hr
  obtain ⟨hother, hvar, hbase, hlen⟩ := step_keeps_job_regs h hp hr
  exact ⟨hother, hvar, hbase, hlen, step_keeps_job h hp⟩

/-- Settles O53: by what a step does to the wrapper's registers. -/
theorem doneAndChainChangeOnlyAsStated : Obligations.DoneAndChainChangeOnlyAsStated := by
  unfold Obligations.DoneAndChainChangeOnlyAsStated
  intro s t h
  exact ⟨step_sets_done h, step_clears_done h, step_idle_wrapper h⟩

/-- Settles O55: a busy wrapper's edge is the sequencer's, which does not touch the job port. -/
theorem jobPortIgnoredWhileBusy : Obligations.JobPortIgnoredWhileBusy := by
  unfold Obligations.JobPortIgnoredWhileBusy
  intro p s t hp h
  rw [runEvent_edge_busy hp] at h
  rw [runEvent_edge_busy (by simpa using hp)]
  exact sequencerEdge_setPort p hp h

/-- Settles O25: such a core is not ready, so the edge is a cycle of its countdown. -/
theorem notReadyCoreCountsDown : Obligations.NotReadyCoreCountsDown := by
  unfold Obligations.NotReadyCoreCountsDown
  intro k s
  refine ⟨fun hw => ?_, fun hw => ?_⟩
  · rw [runEvent_edge, runEdge_not_ready (by simp [hw]), ← coreWait_of_wait hw]
    rfl
  · rw [runEvent_edge, runEdge_not_ready (by simp [hw]), ← coreWait_of_wait hw]
    rfl

/-- Settles O43: one fixed state against the table of R29. -/
theorem resetStateValues : Obligations.ResetStateValues := by
  unfold Obligations.ResetStateValues
  decide

/-- Settles O47: the wrapper's registers after reset are in range, and no location and no read is there. -/
theorem resetSatisfiesInvariant : Obligations.ResetSatisfiesInvariant where
  cfg_wf := rfl
  wrap_inv := wrapReset_inv _
  mem_wf := rfl
  mem_within := rfl
  reads_within := fun _ hr => (List.not_mem_nil hr).elim

end Sys2Proof.Machine

/-! # The message memory: the proofs

What a response does in and out of `PHASE = RSP`, which steps write the memory and which add a read, and the run of a
job in the default order up to the first address that is not valid. -/
namespace Sys2Proof.Machine

/-! ## The address adder (R57) -/

theorem State.memAddr_eq (s : State) : s.memAddr = (s.wrap.base + s.wrap.idx) % 2 ^ s.cfg.addrW := rfl

theorem byteAddr_eq (cfg : Config) (base idx : Nat) : byteAddr cfg base idx = (base + idx) % 2 ^ cfg.addrW := rfl

/-! ## The host's writes and frees (R59, R61) -/

theorem runEvent_writeMsg {a : Nat} {s : State} (ha : a < 2 ^ s.cfg.addrW) (b : Byte) :
    runEvent (.writeMsg a b) s = .next (s.setMem (Memory.write s.mem a b)) := by
  simp [runEvent, ha]

theorem runEvent_freeMsg {a : Nat} {s : State} (ha : a < 2 ^ s.cfg.addrW) :
    runEvent (.freeMsg a) s = .next (s.setMem (Memory.free s.mem a)) := by
  simp [runEvent, ha]

/-! ## The sequencer (R177, R179) -/

theorem WrapperRegs.selected_setCore (w : WrapperRegs) (c : CoreRegs) : (w.setCore w.var c).selected = c := by
  simp [WrapperRegs.selected]

/-- Step BYTE-read at an address that is not `MsgValid` (R58). -/
theorem stepByteRead_invalid {s : State} (hv : Memory.valid s.mem s.memAddr = false) :
    stepByteRead s = .fault (.msgFault s.memAddr) := by
  simp [stepByteRead, hv]

/-! ## Responses (R51, R271) -/

theorem respondOldest_ignored {s : State} (hp : s.wrap.phase ≠ .rsp) :
    respondOldest s = .next (s.setInflight s.inflight.tail) := by
  cases hq : s.inflight with
  | nil =>
    have hs : s.setInflight [] = s := by rw [← hq]; rfl
    simp [respondOldest, hq, hs]
  | cons r q => simp [respondOldest, hq, hp]

theorem respondOldest_absorbs {s : State} {r : MemRequest} {q : List MemRequest} {b : Byte}
    (hp : s.wrap.phase = .rsp) (hq : s.inflight = r :: q) (hb : requestByte s.mem r = some b) :
    respondOldest s = .next ((s.setInflight q).setWrap (stepRsp s.cfg b s.wrap)) := by
  simp [respondOldest, hq, hp, hb, takeResponse]

/-- The selected core mixes in the byte of the response (R178). -/
theorem stepRsp_hashval (cfg : Config) (b : Byte) (w : WrapperRegs) :
    ((stepRsp cfg b w).core w.var).hashval = mixOf w.var (w.core w.var).hashval b := by
  simp [stepRsp_selected, coreAbsorb, WrapperRegs.selected]

/-! ## Frames -/

/-- A job touches the wrapper's registers outside its cores, and its own port, if it is accepted at all. -/
theorem exec_job_frame {i : Instr} {s t : State} (hb : i.block = .wrapper) (h : exec i s = .next t) :
    sameOutsideWrapper s t ∧ t.wrap.c1 = s.wrap.c1 ∧ t.wrap.c1a = s.wrap.c1a := by
  rcases exec_cases i s with ⟨_, _, hb', _⟩ | ⟨_, _, hb', _⟩ | ⟨_, _, _, _, _, he, _, _⟩ | ⟨he, _⟩
  · simp [hb] at hb'
  · simp [hb] at hb'
  · cases he.symm.trans h
    simp [sameOutsideWrapper, sameMemory, startRegs]
  · cases he.symm.trans h
    simp [sameOutsideWrapper, sameMemory]

/-- Only the host's own write and free change the memory (R52). -/
theorem step_keeps_mem {s t : State} (h : step s = .next t) (hw : ∀ a b, nextEvent s ≠ .writeMsg a b)
    (hf : ∀ a, nextEvent s ≠ .freeMsg a) : t.mem = s.mem := by
  cases step_cases h with
  | write a b he => exact absurd he (hw a b)
  | free a he => exact absurd he (hf a)
  | job _ _ hx =>
    obtain ⟨_, _, ht⟩ := sequencerEdge_writes hx
    simp [ht]
  | respond _ hx =>
    obtain ⟨_, _, ht⟩ := respondOldest_writes hx
    simp [ht]
  | stray b _ ht =>
    obtain ⟨_, hw⟩ := takeResponse_writes b s.begin
    simp [ht, hw]
  | core1 _ _ _ ht | core1a _ _ _ ht | wrapReset _ ht | start _ _ _ _ _ _ _ _ ht | sample _ _ ht | flush _ ht
  | port _ _ _ ht | nothing _ ht => simp [ht]

/-- A busy edge at the wrapper issues no read, or is step BYTE-read and issues the one of the message byte `IDX`
(R177). -/
theorem sequencerEdge_reads {s t : State} (h : sequencerEdge s = .next t) :
    t.inflight = s.inflight ∨
    (s.wrap.phase = .byte ∧ s.wrap.idx ≠ s.wrap.len ∧ Memory.valid s.mem s.memAddr = true ∧
      t.inflight = s.inflight ++ [{ addr := s.memAddr, data := none }]) := by
  obtain ⟨_, rfl⟩ | ⟨_, ⟨_, rfl⟩ | ⟨_, rfl⟩ | ⟨_, _, rfl⟩ | ⟨hb, hi, hv, rfl⟩ | ⟨_, rfl⟩⟩ :=
    sequencerEdge_cases h
  · exact .inl rfl
  · exact .inl rfl
  · exact .inl rfl
  · exact .inl rfl
  · exact .inr ⟨hb, hi, hv, rfl⟩
  · exact .inl rfl

/-- A step leaves no more reads in flight than there were, or is step BYTE-read. -/
theorem step_reads {s t : State} (h : step s = .next t) :
    t.inflight.length ≤ s.inflight.length ∨
    (nextEvent s = .edge .wrapper ∧ s.wrap.phase = .byte ∧ s.wrap.idx ≠ s.wrap.len ∧
      Memory.valid s.mem s.memAddr = true ∧
      t.inflight = s.inflight ++ [{ addr := s.memAddr, data := none }]) := by
  cases step_cases h with
  | job he _ hx =>
    obtain ht | ⟨hb, hi, hv, ht⟩ := sequencerEdge_reads hx
    · exact .inl (by simp [ht])
    · exact .inr ⟨he, hb, hi, hv, ht⟩
  | respond _ hx =>
    obtain ⟨_, rfl⟩ | ⟨_, _, hq, _, rfl⟩ | ⟨_, _, _, hq, _, _, rfl⟩ := respondOldest_cases hx
    · exact .inl (Nat.le_refl _)
    · exact .inl (by rw [← State.begin_inflight s, hq]; simp)
    · exact .inl (by rw [← State.begin_inflight s, hq]; simp)
  | stray b _ ht =>
    obtain ⟨_, hw⟩ := takeResponse_writes b s.begin
    exact .inl (by simp [ht, hw])
  | core1 _ _ _ ht | core1a _ _ _ ht | wrapReset _ ht | start _ _ _ _ _ _ _ _ ht | sample _ _ ht | flush _ ht
  | write _ _ _ _ ht | free _ _ _ ht | port _ _ _ ht | nothing _ ht => exact .inl (by simp [ht])

/-! ## The word of a job (R82, R84) -/

theorem encode_runInstr (cfg : Config) (v : Variant) (dseed : Bool) (n b l : Nat) (k : Word) :
    ∃ op, op < 4 ∧ decide (op % 2 = 1) = decide (v = .fnv1a) ∧ decide (op / 2 = 1) = dseed ∧
      encode cfg (runInstr v dseed n b l k) = packJob cfg op n b l k := by
  cases v <;> cases dseed
  · exact ⟨0, by decide, rfl, rfl, rfl⟩
  · exact ⟨2, by decide, rfl, rfl, rfl⟩
  · exact ⟨1, by decide, rfl, rfl, rfl⟩
  · exact ⟨3, by decide, rfl, rfl, rfl⟩

theorem decodeJob_eq_runInstr {cfg : Config} {w : Nat} {v : Variant} {dseed : Bool}
    (hv : bitAt w (jobOpLo cfg) = decide (v = .fnv1a)) (hd : bitAt w (jobOpLo cfg + 1) = dseed) :
    decodeJob cfg w = runInstr v dseed (field w (64 + cfg.lenW + cfg.addrW) cfg.cntW)
      (field w (64 + cfg.lenW) cfg.addrW) (field w 64 cfg.lenW) (BitVec.ofNat 64 w) := by
  cases v <;> cases dseed <;> simp [decodeJob, runInstr, hv, hd]

/-- A job whose fields fit is what its word decodes to at the job port. -/
theorem decode_encode_runInstr {cfg : Config} {n b l : Nat} (v : Variant) (dseed : Bool) (k : Word)
    (hf : jobFits cfg n b l = true) :
    decode cfg .wrapper (encode cfg (runInstr v dseed n b l k)) = .ok (runInstr v dseed n b l k) := by
  obtain ⟨op, hop, hv, hd, hw⟩ := encode_runInstr cfg v dseed n b l k
  generalize encode cfg (runInstr v dseed n b l k) = w at hw
  obtain ⟨hlt, hk, hl, hb, hn, hlo, hhi⟩ := packJob_fields cfg k hop hf w hw
  rw [decode_wrapper hlt,
    decodeJob_eq_runInstr (v := v) (dseed := dseed) (by rw [bitAt, hlo, hv]) (by rw [bitAt, hhi, hd]),
    hk, hl, hb, hn]

theorem exec_runInstr (v : Variant) (dseed : Bool) (n b l : Nat) (k : Word) (s : State) :
    exec (runInstr v dseed n b l k) s = acceptJob v (jobSeed v dseed k) n b l s := by
  cases v <;> cases dseed <;> rfl

/-- The operands of a job whose fields fit stand in the registers as they are. -/
theorem startRegs_of_fits {cfg : Config} {n b l : Nat} (hf : jobFits cfg n b l = true) (v : Variant) (k : Word)
    (w : WrapperRegs) :
    (startRegs cfg v k n b l w).cnt = n ∧ (startRegs cfg v k n b l w).base = b ∧
    (startRegs cfg v k n b l w).len = l := by
  simp only [jobFits, Bool.and_eq_true, decide_eq_true_eq] at hf
  obtain ⟨⟨hn, hb⟩, hl⟩ := hf
  exact ⟨Nat.mod_eq_of_lt hn, Nat.mod_eq_of_lt hb, Nat.mod_eq_of_lt hl⟩

theorem startRegs_selected_ready {w : WrapperRegs} (h1 : w.c1.wait = 0) (h1a : w.c1a.wait = 0) (cfg : Config)
    (v : Variant) (k : Word) (n b l : Nat) : (startRegs cfg v k n b l w).selected.wait = 0 := by
  cases v
  · exact h1
  · exact h1a

/-! ## The default order (log 4) -/

section
variable {s : State}

theorem Quiet.begin (h : Quiet s) : Quiet s.begin :=
  { h with schedule_empty := by simp [h.schedule_empty] }

theorem Quiet.setWrap (h : Quiet s) (w : WrapperRegs) : Quiet (s.setWrap w) := { h with }

theorem Quiet.setJob (h : Quiet s) (p : Option Nat) : Quiet (s.setPort .wrapper p) := { h with }

theorem Quiet.setInflight_nil (h : Quiet s) : Quiet (s.setInflight []) := { h with no_reads := rfl }

theorem Quiet.core1_inactive (h : Quiet s) : coreActive s.fnv1 s.cmd1 = false := by
  simp [coreActive, h.no_cmd1, h.ready1]

theorem Quiet.core1a_inactive (h : Quiet s) : coreActive s.fnv1a s.cmd1a = false := by
  simp [coreActive, h.no_cmd1a, h.ready1a]

/-- A quiet machine with a job on the port of its idle wrapper executes it next. -/
theorem Quiet.step_accepts {w : Nat} {i : Instr} (h : Quiet s) (hp : s.wrap.phase = .idle) (hj : s.job = some w)
    (hd : decode s.cfg .wrapper w = .ok i) : step s = exec i s.begin := by
  rw [step_eq, nextEvent_wrapper h.schedule_empty h.core1_inactive h.core1a_inactive h.no_reads (by simp [hp])
    (.inr (by simp [hj]))]
  exact runEdge_accepts (by simp [hp]) (by simp [hj]) hd

/-- A quiet machine with a running job that does not wait for the memory takes the sequencer's next step. -/
theorem Quiet.step_busy (h : Quiet s) (hi : s.wrap.phase ≠ .idle) (hr : s.wrap.phase ≠ .rsp) :
    step s = sequencerEdge s.begin := by
  rw [step_eq, nextEvent_wrapper h.schedule_empty h.core1_inactive h.core1a_inactive h.no_reads hr (.inl hi)]
  exact runEvent_edge_busy hi

/-- A machine that is quiet but for its reads has the oldest one answered next. -/
theorem Quiet.step_answers {q : List MemRequest} (h : Quiet s) (hq : q ≠ []) :
    step (s.setInflight q) = respondOldest (s.setInflight q).begin := by
  rw [step_eq, nextEvent_answers (s := s.setInflight q) h.schedule_empty h.core1_inactive h.core1a_inactive hq,
    runEvent_respond]

end

/-! ## Runs that end in a fault -/

/-- Some number of steps from `s` ends in the fault `f`. -/
def EndsInFault (f : Fault) (s : State) : Prop := ∃ k, Host.Core.run Sys2Proof.core k s = .fault f

theorem EndsInFault.of_fault {f : Fault} {s : State} (h : step s = .fault f) : EndsInFault f s :=
  ⟨1, by simp only [Host.Core.run]; rw [show Sys2Proof.core.step s = step s from rfl, h]⟩

theorem EndsInFault.of_step {f : Fault} {s t : State} (h : step s = .next t) (ht : EndsInFault f t) :
    EndsInFault f s := by
  obtain ⟨k, hk⟩ := ht
  exact ⟨k + 1, (core_run_next h).trans hk⟩

/-! ## A pass up to its first invalid address (R58) -/

/-- A quiet machine between two bytes of a pass over the `len` bytes at `base` of the memory `m`. -/
structure InPass (cfg : Config) (m : Memory) (base len : Nat) (s : State) : Prop where
  quiet : Quiet s
  cfg_eq : s.cfg = cfg
  mem_eq : s.mem = m
  phase_eq : s.wrap.phase = .byte
  base_eq : s.wrap.base = base
  len_eq : s.wrap.len = len

section
variable {cfg : Config} {m : Memory} {base len : Nat} {s : State}

theorem InPass.memAddr_eq (h : InPass cfg m base len s) : s.memAddr = byteAddr cfg base s.wrap.idx := by
  rw [State.memAddr, h.cfg_eq, h.base_eq]

theorem InPass.step_eq (h : InPass cfg m base len s) : step s = sequencerEdge s.begin :=
  h.quiet.step_busy (by simp [h.phase_eq]) (by simp [h.phase_eq])

/-- A cycle of the selected core's multiplication (log 8). -/
theorem InPass.step_waits {k : Nat} (h : InPass cfg m base len s) (hw : s.wrap.selected.wait = k + 1) :
    ∃ t, step s = .next t ∧ InPass cfg m base len t ∧ t.wrap.idx = s.wrap.idx ∧ t.wrap.selected.wait = k := by
  refine ⟨_, h.step_eq.trans (sequencerEdge_waits (by simp [hw])), ?_, by simp, ?_⟩
  · exact ⟨h.quiet.begin.setWrap _, h.cfg_eq, h.mem_eq, by simp [h.phase_eq], by simp [h.base_eq],
      by simp [h.len_eq]⟩
  · rw [State.setWrap_wrap, State.begin_wrap, WrapperRegs.selected_setCore, coreWait_of_wait hw]

/-- With the selected core ready and a byte left, the next step is BYTE-read (R177). -/
theorem InPass.step_reads (h : InPass cfg m base len s) (hw : s.wrap.selected.wait = 0) (hi : s.wrap.idx ≠ len) :
    step s = stepByteRead s.begin := by
  rw [h.step_eq]
  exact sequencerEdge_byteRead hw h.phase_eq (by simpa [h.len_eq] using hi)

/-- Step BYTE-read of a byte that is there, and the memory's answer (R177, R178). -/
theorem InPass.step_absorbs {b : Byte} (h : InPass cfg m base len s) (hw : s.wrap.selected.wait = 0)
    (hi : s.wrap.idx < len) (hl : len < 2 ^ cfg.lenW)
    (hb : Memory.read m (byteAddr cfg base s.wrap.idx) = some b) :
    ∃ t u, step s = .next t ∧ step t = .next u ∧ InPass cfg m base len u ∧ u.wrap.idx = s.wrap.idx + 1 := by
  have hr : Memory.read s.mem s.memAddr = some b := by rw [h.mem_eq, h.memAddr_eq, hb]
  have hissue := (h.step_reads hw hi.ne).trans (stepByteRead_valid (s := s.begin) (Memory.valid_of_read hr))
  rw [State.begin_inflight, h.quiet.no_reads, List.nil_append] at hissue
  have hq := h.quiet.begin.setWrap { s.wrap with phase := .rsp }
  have hbyte : requestByte s.mem { addr := s.memAddr, data := none } = some b := hr
  have hanswer := (hq.step_answers (List.cons_ne_nil _ [])).trans (respondOldest_absorbs rfl rfl hbyte)
  refine ⟨_, _, hissue, hanswer, ⟨hq.begin.setInflight_nil.setWrap _, h.cfg_eq, h.mem_eq, rfl, ?_, ?_⟩, ?_⟩
  · simp [h.base_eq]
  · simp [h.len_eq]
  · exact stepRsp_idx (by simp [h.cfg_eq]; omega)

/-- Step BYTE-read of a byte that is not there (R58). -/
theorem InPass.step_faults (h : InPass cfg m base len s) (hw : s.wrap.selected.wait = 0)
    (hi : s.wrap.idx ≠ len) (hv : Memory.valid m (byteAddr cfg base s.wrap.idx) = false) :
    step s = .fault (.msgFault (byteAddr cfg base s.wrap.idx)) := by
  rw [← h.memAddr_eq, ← h.mem_eq] at hv
  rw [← h.memAddr_eq, h.step_reads hw hi]
  exact stepByteRead_invalid (s := s.begin) hv

/-- The sequencer waits for the selected core, so a fault of the pass need only be shown from a ready one. -/
theorem InPass.endsInFault_of_ready {f : Fault} (h : InPass cfg m base len s)
    (hready : ∀ t, InPass cfg m base len t → t.wrap.idx = s.wrap.idx → t.wrap.selected.wait = 0 →
      EndsInFault f t) : EndsInFault f s := by
  induction hw : s.wrap.selected.wait generalizing s with
  | zero => exact hready s h rfl hw
  | succ k ih =>
    obtain ⟨t, hs, ht, hi, hk⟩ := h.step_waits hw
    exact .of_step hs (ih ht (fun u hu hui => hready u hu (hui.trans hi)) hk)

/-- A pass over a message whose bytes are there up to an invalid address ends in the fault of that address, by
induction on the good bytes left. -/
theorem InPass.endsInFault {msg : List Byte} (hm : holdsMessage cfg m base msg) (hlen : msg.length < len)
    (hl : len < 2 ^ cfg.lenW) (hv : Memory.valid m (byteAddr cfg base msg.length) = false)
    (h : InPass cfg m base len s) (hi : s.wrap.idx ≤ msg.length) :
    EndsInFault (.msgFault (byteAddr cfg base msg.length)) s := by
  induction hd : msg.length - s.wrap.idx generalizing s with
  | zero =>
    have hidx : s.wrap.idx = msg.length := by omega
    refine h.endsInFault_of_ready fun t ht hti hw => .of_fault ?_
    rw [← hidx, ← hti]
    exact ht.step_faults hw (by omega) (by rw [hti, hidx, hv])
  | succ d ih =>
    refine h.endsInFault_of_ready fun t ht hti hw => ?_
    have hlt : t.wrap.idx < msg.length := by omega
    obtain ⟨u, x, hu, hx, hin, hxi⟩ := ht.step_absorbs hw (by omega) hl (hm t.wrap.idx hlt)
    exact .of_step hu (.of_step hx (ih hin (by omega) (by omega)))

end

/-- The START event and step CHECK bring a quiet machine with a job of count at least 1 to its first byte (R171 to
R175). -/
theorem Quiet.starts_pass {v : Variant} {dseed : Bool} {n base len : Nat} {seed : Word} {s : State} (h : Quiet s)
    (hf : jobFits s.cfg n base len = true) (hn : n ≠ 0) (hp : s.wrap.phase = .idle) (h1 : s.wrap.c1.wait = 0)
    (h1a : s.wrap.c1a.wait = 0) (hj : s.job = some (encode s.cfg (runInstr v dseed n base len seed))) :
    ∃ t u, step s = .next t ∧ step t = .next u ∧ InPass s.cfg s.mem base len u ∧ u.wrap.idx = 0 := by
  have hstart := h.step_accepts hp hj (decode_encode_runInstr v dseed seed hf)
  rw [exec_runInstr, acceptJob_ready (s := s.begin) hp] at hstart
  obtain ⟨hcnt, hbase, hlen⟩ := startRegs_of_fits hf v (jobSeed v dseed seed) s.wrap
  obtain ⟨hphase, hidx, -⟩ := stepCheck_seeds (hcnt ▸ hn)
  have hready := startRegs_selected_ready h1 h1a s.cfg v (jobSeed v dseed seed) n base len
  have hq := (h.begin.setWrap (startRegs s.cfg v (jobSeed v dseed seed) n base len s.wrap)).setJob none
  have hcheck := (hq.step_busy nofun nofun).trans (sequencerEdge_check hready rfl)
  exact ⟨_, _, hstart, hcheck,
    ⟨hq.begin.setWrap _, rfl, rfl, hphase, (stepCheck_base _).trans hbase, (stepCheck_len _).trans hlen⟩, hidx⟩

/-! ## The statements -/

/-- Settles O59: START and step CHECK reach the first byte, and the pass ends at the first invalid address. -/
theorem invalidAddressEndsInMsgFault : Obligations.InvalidAddressEndsInMsgFault := by
  unfold Obligations.InvalidAddressEndsInMsgFault
  intro v dseed n base len msg seed s _ hn hn' hb hl hlen hq hp h1 h1a hj hm hv
  have hf : jobFits s.cfg n base len = true := by simp [jobFits, hn', hb, hl]
  obtain ⟨t, u, ht, hu, hin, hi⟩ := hq.starts_pass hf hn.ne' hp h1 h1a hj
  exact EndsInFault.of_step ht (.of_step hu (hin.endsInFault hm hlen hl hv (by omega)))

/-- Settles O33: a job is accepted and writes its registers and port only, or waits. -/
theorem jobFrame : Obligations.JobFrame := by
  unfold Obligations.JobFrame
  exact fun i s t hb h => exec_job_frame hb h

/-- Settles O41: out of `PHASE = RSP` a response is dropped; in it the byte is absorbed, and its address is not looked
at. -/
theorem staleResponses : Obligations.StaleResponses := by
  unfold Obligations.StaleResponses
  refine ⟨fun s hp => respondOldest_ignored hp, fun b s hp => ?_, fun a b q s hp hq => ?_, fun b s hp => ?_⟩
  · rw [runEvent_stray, takeResponse_ignored hp]
  · exact ⟨_, respondOldest_absorbs hp hq rfl, rfl, rfl, stepRsp_hashval ..⟩
  · refine ⟨_, runEvent_stray b s, ?_⟩
    rw [takeResponse_rsp hp]
    exact ⟨rfl, rfl, stepRsp_hashval ..⟩

/-- Settles O49: such a step keeps the memory itself, so the read of every address. -/
theorem hardwareNeverWritesMemory : Obligations.HardwareNeverWritesMemory := by
  unfold Obligations.HardwareNeverWritesMemory
  intro s t h hw hf a
  rw [step_keeps_mem h hw hf]

/-- Settles O50: by the laws of a read after a write and after a free. -/
theorem hostWriteChangesOneLocation : Obligations.HostWriteChangesOneLocation := by
  unfold Obligations.HostWriteChangesOneLocation
  intro a b s ha
  refine ⟨⟨_, runEvent_writeMsg ha b, ?_, fun a' h => ?_, rfl, rfl⟩,
    ⟨_, runEvent_freeMsg ha, ?_, fun a' h => ?_, rfl, rfl⟩⟩
  · exact Memory.read_write_same ..
  · exact Memory.read_write_other _ b h
  · exact Memory.read_free_same ..
  · exact Memory.read_free_other _ h

/-- Settles O54: a step that is not BYTE-read leaves no more reads in flight than there were. -/
theorem readsOnlyMessageBytes : Obligations.ReadsOnlyMessageBytes := by
  unfold Obligations.ReadsOnlyMessageBytes
  intro s t h hmore
  exact (step_reads h).resolve_left (Nat.not_le.mpr hmore)

/-- Settles O40: the adder's sum is taken modulo `2^ADDR_W`, and a request shows it on the port. -/
theorem messageAddressWraps : Obligations.MessageAddressWraps := by
  unfold Obligations.MessageAddressWraps
  refine ⟨State.memAddr_eq, fun s rst h => ?_, fun cfg base idx => ⟨byteAddr_eq .., ?_, ?_, fun h => ?_⟩⟩
  · rw [State.memAddrPort_request h, State.memAddr_eq]
  · exact Nat.mod_lt _ (Nat.two_pow_pos _)
  · rw [byteAddr_eq, byteAddr_eq, Nat.add_mod_mod]
  · rw [byteAddr_eq, h, Nat.mod_self]

end Sys2Proof.Machine

/-! # The encoding: the proofs

The twelve rows as the core commands `coreInstr` and the jobs `runInstr`, the word of each with its fields, and what an
accepted core command does to the core of its variant. -/
namespace Sys2Proof.Machine

/-! ## The rows of the two formats (spec/30_encoding.md R80, R83, R84) -/

theorem coreInstr_block (v : Variant) (op : CoreOp) (d : Word) : (coreInstr v op d).block = coreBlock v := by
  cases v <;> cases op <;> rfl

/-- A core's port takes the four commands of its variant. -/
theorem eq_coreInstr_of_block {i : Instr} {v : Variant} (hb : i.block = coreBlock v) :
    ∃ op d, i = coreInstr v op d := by
  cases v
  · cases i with
    | fnv1Nop d => exact ⟨.nop, d, rfl⟩
    | fnv1Initd d => exact ⟨.initd, d, rfl⟩
    | fnv1Inits d => exact ⟨.inits, d, rfl⟩
    | fnv1Absorb d => exact ⟨.absorb, d, rfl⟩
    | _ => cases hb
  · cases i with
    | fnv1aNop d => exact ⟨.nop, d, rfl⟩
    | fnv1aInitd d => exact ⟨.initd, d, rfl⟩
    | fnv1aInits d => exact ⟨.inits, d, rfl⟩
    | fnv1aAbsorb d => exact ⟨.absorb, d, rfl⟩
    | _ => cases hb

/-- The wrapper's port takes the four jobs. -/
theorem eq_runInstr_of_block {i : Instr} (hb : i.block = .wrapper) :
    ∃ v dseed n b l k, i = runInstr v dseed n b l k := by
  cases i with
  | runFnv1 n b l k => exact ⟨.fnv1, false, n, b, l, k, rfl⟩
  | runFnv1a n b l k => exact ⟨.fnv1a, false, n, b, l, k, rfl⟩
  | runFnv1D n b l k => exact ⟨.fnv1, true, n, b, l, k, rfl⟩
  | runFnv1aD n b l k => exact ⟨.fnv1a, true, n, b, l, k, rfl⟩
  | _ => cases hb

/-- Every value of `DATA` is legal (R86). -/
theorem coreInstr_wellFormed (cfg : Config) (v : Variant) (op : CoreOp) (d : Word) :
    (coreInstr v op d).wellFormed cfg = true := by
  cases v <;> cases op <;> rfl

theorem runInstr_wellFormed (cfg : Config) (v : Variant) (dseed : Bool) (n b l : Nat) (k : Word) :
    (runInstr v dseed n b l k).wellFormed cfg = jobFits cfg n b l := by
  cases v <;> cases dseed <;> rfl

/-! ## Decoding is total on the port's words (R86) -/

theorem decode_ok_of_lt {cfg : Config} {b : Block} {w : Nat} (h : w < 2 ^ wordBits cfg b) :
    ∃ i, decode cfg b w = .ok i := by
  cases b
  · exact ⟨_, decode_fnv1Core h⟩
  · exact ⟨_, decode_fnv1aCore h⟩
  · exact ⟨_, decode_wrapper h⟩

theorem lt_of_decode_ok {cfg : Config} {b : Block} {w : Nat} {i : Instr} (h : decode cfg b w = .ok i) :
    w < 2 ^ wordBits cfg b := by
  unfold decode at h
  split at h
  · assumption
  · cases h

/-- One bit is 0 or 1. -/
theorem field_one_lt (w lo : Nat) : field w lo 1 < 2 := Nat.mod_lt _ (by decide)

/-! ## The word of a core command (R81, R83) -/

/-- The operation code of R83. -/
def opCode : CoreOp → Nat
  | .nop => 0
  | .initd => 1
  | .inits => 2
  | .absorb => 3

theorem opCode_lt (op : CoreOp) : opCode op < 4 := by
  cases op <;> decide

/-- Every two-bit number is an operation code. -/
theorem exists_opCode {n : Nat} (h : n < 4) : ∃ op, opCode op = n := by
  match n, h with
  | 0, _ => exact ⟨.nop, rfl⟩
  | 1, _ => exact ⟨.initd, rfl⟩
  | 2, _ => exact ⟨.inits, rfl⟩
  | 3, _ => exact ⟨.absorb, rfl⟩

theorem encode_coreInstr (cfg : Config) (v : Variant) (op : CoreOp) (d : Word) :
    encode cfg (coreInstr v op d) = packCommand (opCode op) d := by
  cases v <;> cases op <;> rfl

/-- A C-format word is the command of its operation code and its `DATA`. -/
theorem decode_eq_coreInstr {cfg : Config} {w : Nat} {op : CoreOp} (v : Variant) (hw : w < 2 ^ 66)
    (hlo : field w 64 1 = opCode op % 2) (hhi : field w 65 1 = opCode op / 2) :
    decode cfg (coreBlock v) w = .ok (coreInstr v op (BitVec.ofNat 64 w)) := by
  cases v
  · rw [coreBlock, decode_fnv1Core hw, decodeFnv1, bitAt, bitAt, hlo, hhi]
    cases op <;> rfl
  · rw [coreBlock, decode_fnv1aCore hw, decodeFnv1a, bitAt, bitAt, hlo, hhi]
    cases op <;> rfl

theorem decode_encode_coreInstr (cfg : Config) (v : Variant) (op : CoreOp) (d : Word) :
    decode cfg (coreBlock v) (encode cfg (coreInstr v op d)) = .ok (coreInstr v op d) := by
  obtain ⟨hlt, hd, hlo, hhi⟩ := packCommand_fields (opCode op) (opCode_lt op) d
  rw [encode_coreInstr]
  generalize packCommand (opCode op) d = w at *
  rw [decode_eq_coreInstr v hlt hlo hhi, hd]

/-- The fields of any C-format word, packed again, give the word. -/
theorem packCommand_of_fields {w : Nat} (h : w < 2 ^ 66) :
    packCommand (2 * field w 65 1 + field w 64 1) (BitVec.ofNat 64 w) = w := by
  simp only [packCommand, field, BitVec.toNat_ofNat]
  omega

/-- Every C-format word is the word of a command, which it decodes to. -/
theorem decode_coreBlock_eq (cfg : Config) (v : Variant) {w : Nat} (h : w < 2 ^ 66) :
    ∃ op d, decode cfg (coreBlock v) w = .ok (coreInstr v op d) ∧ encode cfg (coreInstr v op d) = w := by
  have h0 := field_one_lt w 64
  have h1 := field_one_lt w 65
  obtain ⟨op, hop⟩ := exists_opCode (n := 2 * field w 65 1 + field w 64 1) (by omega)
  refine ⟨op, _, decode_eq_coreInstr v h (by omega) (by omega), ?_⟩
  rw [encode_coreInstr, hop, packCommand_of_fields h]

/-! ## The word of a job (R82, R84) -/

/-- Every J-format word is the word of a job whose fields fit, which it decodes to. -/
theorem decode_wrapper_eq (cfg : Config) {w : Nat} (h : w < 2 ^ (jobOpLo cfg + 2)) :
    ∃ v dseed n b l k, decode cfg .wrapper w = .ok (runInstr v dseed n b l k) ∧ jobFits cfg n b l = true ∧
      encode cfg (runInstr v dseed n b l k) = w := by
  obtain ⟨hf, hw⟩ := packJob_of_fields cfg w h
  have h0 := field_one_lt w (jobOpLo cfg)
  have h1 := field_one_lt w (jobOpLo cfg + 1)
  obtain ⟨v, hv⟩ : ∃ v, bitAt w (jobOpLo cfg) = decide (v = Variant.fnv1a) := by
    cases bitAt w (jobOpLo cfg)
    · exact ⟨.fnv1, rfl⟩
    · exact ⟨.fnv1a, rfl⟩
  refine ⟨v, _, _, _, _, _, (decode_wrapper h).trans (congrArg _ (decodeJob_eq_runInstr hv rfl)), hf, ?_⟩
  obtain ⟨op, hop, hlo, hhi, he⟩ := encode_runInstr cfg v (bitAt w (jobOpLo cfg + 1))
    (field w (64 + cfg.lenW + cfg.addrW) cfg.cntW) (field w (64 + cfg.lenW) cfg.addrW) (field w 64 cfg.lenW)
    (BitVec.ofNat 64 w)
  have e0 : op % 2 = 1 ↔ field w (jobOpLo cfg) 1 = 1 := by simpa [bitAt] using hlo.trans hv.symm
  have e1 : op / 2 = 1 ↔ field w (jobOpLo cfg + 1) 1 = 1 := by simpa [bitAt] using hhi
  have hopw : op = 2 * field w (jobOpLo cfg + 1) 1 + field w (jobOpLo cfg) 1 := by omega
  rw [he, hopw, hw]

/-! ## An instruction on its port (R86, R90, R91) -/

/-- No instruction stops the machine. -/
theorem exec_next (i : Instr) (s : State) : ∃ t, exec i s = .next t := by
  obtain ⟨c, h, _⟩ | ⟨c, h, _⟩ | ⟨v, k, n, b, l, h, _⟩ | ⟨h, _⟩ := exec_cases i s <;> exact ⟨_, h⟩

theorem exec_waits {i : Instr} {s : State} (hr : s.ready i.block = false) : exec i s = .next s := by
  obtain ⟨c, _, hb, hw⟩ | ⟨c, _, hb, hw⟩ | ⟨v, k, n, b, l, _, hb, hp⟩ | ⟨h, _⟩ := exec_cases i s
  · simp [hb, hw] at hr
  · simp [hb, hw] at hr
  · simp [hb, hp] at hr
  · exact h

/-- An accepted word leaves its port (log 3). -/
theorem exec_empties_port {i : Instr} {s t : State} (hr : s.ready i.block = true) (h : exec i s = .next t) :
    t.port i.block = none := by
  obtain ⟨c, he, hb, _⟩ | ⟨c, he, hb, _⟩ | ⟨v, k, n, b, l, he, hb, _⟩ | ⟨_, hn⟩ := exec_cases i s
  · cases he.symm.trans h
    simp [hb]
  · cases he.symm.trans h
    simp [hb]
  · cases he.symm.trans h
    simp [hb]
  · simp [hn] at hr

/-- `ABSORB` depends on `DATA[7:0]` only (R85 item 1). -/
theorem coreAbsorb_congr {d d' : Word} (h : d.extractLsb' 0 8 = d'.extractLsb' 0 8) (cfg : Config) (v : Variant) :
    coreAbsorb cfg v d = coreAbsorb cfg v d' := by
  have hb : absorbByte d = absorbByte d' := by
    simpa [absorbByte, BitVec.setWidth_eq_extractLsb'] using h
  funext c
  simp only [coreAbsorb, hb]

/-! ## A core command accepted by the core of its variant -/

/-- What a command does to its core. -/
def coreUpdate (cfg : Config) (v : Variant) (d : Word) : CoreOp → CoreRegs → CoreRegs
  | .nop => coreNop
  | .initd => coreInitd v
  | .inits => coreInits d
  | .absorb => coreAbsorb cfg v d

/-- The stand-alone core of a variant takes new registers. -/
def setStandalone (v : Variant) (c : CoreRegs) (s : State) : State :=
  match v with
  | .fnv1 => s.setFnv1 c
  | .fnv1a => s.setFnv1a c

@[simp] theorem standalone_setStandalone (v : Variant) (c : CoreRegs) (s : State) :
    standalone v (setStandalone v c s) = c := by
  cases v <;> rfl

@[simp] theorem standalone_setPort (v : Variant) (s : State) (b : Block) (p : Option Nat) :
    standalone v (s.setPort b p) = standalone v s := by
  cases v <;> simp [standalone]

@[simp] theorem makeReady_cfg (b : Block) (s : State) : (makeReady b s).cfg = s.cfg := by
  cases b <;> rfl

@[simp] theorem standalone_makeReady (v : Variant) (s : State) :
    standalone v (makeReady (coreBlock v) s) = { standalone v s with wait := 0 } := by
  cases v <;> rfl

theorem ready_coreBlock_iff (v : Variant) (s : State) : s.ready (coreBlock v) = true ↔ (standalone v s).wait = 0 := by
  cases v <;> simp [coreBlock, standalone]

theorem exec_coreInstr_ready {v : Variant} {s : State} (hw : (standalone v s).wait = 0) (op : CoreOp) (d : Word) :
    exec (coreInstr v op d) s =
      .next ((setStandalone v (coreUpdate s.cfg v d op (standalone v s)) s).setPort (coreBlock v) none) := by
  cases v
  · cases op <;> exact acceptFnv1_ready hw
  · cases op <;> exact acceptFnv1a_ready hw

theorem coreUpdate_wait_absorb (cfg : Config) (v : Variant) (d : Word) (c : CoreRegs) :
    (coreUpdate cfg v d .absorb c).wait = cfg.mixLatency - 1 := rfl

theorem coreUpdate_wait_other {op : CoreOp} (h : op ≠ .absorb) (cfg : Config) (v : Variant) (d : Word)
    (c : CoreRegs) : (coreUpdate cfg v d op c).wait = c.wait := by
  cases op with
  | absorb => exact absurd rfl h
  | _ => rfl

/-- After an `ABSORB` the core waits `MIX_LATENCY - 1` cycles (R22, log 8). -/
theorem exec_absorb_wait {v : Variant} {d : Word} {s t : State} (hr : s.ready (coreBlock v) = true)
    (h : exec (coreInstr v .absorb d) s = .next t) : (standalone v t).wait = s.cfg.mixLatency - 1 := by
  rw [exec_coreInstr_ready ((ready_coreBlock_iff v s).mp hr)] at h
  cases h
  simp [coreUpdate_wait_absorb]

/-- After any other command the core is ready at once (log 8). -/
theorem exec_other_wait {i : Instr} {v : Variant} {s t : State} (hb : i.block = coreBlock v)
    (hi : ∀ d, i ≠ coreInstr v .absorb d) (hr : s.ready i.block = true) (h : exec i s = .next t) :
    (standalone v t).wait = 0 := by
  have hw : (standalone v s).wait = 0 := (ready_coreBlock_iff v s).mp (hb ▸ hr)
  obtain ⟨op, d, rfl⟩ := eq_coreInstr_of_block hb
  have hop : op ≠ .absorb := fun e => hi d (e ▸ rfl)
  rw [exec_coreInstr_ready hw] at h
  cases h
  simp [coreUpdate_wait_other hop, hw]

/-! ## Command sequences (R89, R134, R154) -/

/-- The first command of a sequence is accepted, and the rest runs from the state that it leaves. -/
theorem runCommands_coreInstr (v : Variant) (op : CoreOp) (d : Word) (l : List Instr) (s : State) :
    ∃ t, runCommands (coreInstr v op d :: l) s = runCommands l t ∧
      standalone v t = coreUpdate s.cfg v d op { standalone v s with wait := 0 } := by
  refine ⟨(setStandalone v (coreUpdate s.cfg v d op { standalone v s with wait := 0 })
    (makeReady (coreBlock v) s)).setPort (coreBlock v) none, ?_, by simp⟩
  rw [runCommands, coreInstr_block, exec_coreInstr_ready (by simp)]
  simp

/-- Both hash functions are the left fold of their mixing step (R119). -/
theorem hashOf_eq_foldBytes (v : Variant) (text : List Byte) (k : Word) :
    hashOf v text k = foldBytes (mixOf v) k text := by
  cases v <;> rfl

/-- One `ABSORB` per byte goes on with the hash from `hashval`. -/
theorem runCommands_contBytes (v : Variant) (text : List Byte) (s : State) :
    ∃ t, runCommands (contBytes v text) s = .next t ∧
      (standalone v t).hashval = hashOf v text (standalone v s).hashval := by
  simp only [hashOf_eq_foldBytes]
  induction text generalizing s with
  | nil => exact ⟨s, rfl, rfl⟩
  | cons b text ih =>
    obtain ⟨u, hu, hc⟩ := runCommands_coreInstr v .absorb (zext64 b) (contBytes v text) s
    obtain ⟨t, ht, hh⟩ := ih u
    refine ⟨t, hu.trans ht, ?_⟩
    rw [hh, hc, foldBytes, coreUpdate, coreAbsorb, absorbByte_zext64]

/-- A command that sets `hashval` before the `ABSORB` sequence gives its seed. -/
theorem runCommands_seed_contBytes {v : Variant} {op : CoreOp} {d k : Word}
    (hop : ∀ cfg c, (coreUpdate cfg v d op c).hashval = k) (text : List Byte) (s : State) :
    ∃ t, runCommands (coreInstr v op d :: contBytes v text) s = .next t ∧
      (standalone v t).hashval = hashOf v text k := by
  obtain ⟨u, hu, hc⟩ := runCommands_coreInstr v op d (contBytes v text) s
  obtain ⟨t, ht, hh⟩ := runCommands_contBytes v text u
  exact ⟨t, hu.trans ht, by rw [hh, hc, hop]⟩

/-! ## A word presented next (log 9) -/

theorem presentNext_cfg (b : Block) (w : Nat) (s : State) : (presentNext b w s).cfg = s.cfg := by
  cases b <;> rfl

theorem presentNext_ready (b : Block) (w : Nat) (s : State) : (presentNext b w s).ready b = true := by
  cases b <;> rfl

theorem presentNext_port (b : Block) (w : Nat) (s : State) : (presentNext b w s).port b = some w := by
  cases b <;> rfl

/-- The start of the step takes the presented edge off the schedule again. -/
theorem presentNext_begin (b : Block) (w : Nat) (s : State) :
    (presentNext b w s).begin =
      { (makeReady b s).setPort b (some w) with schedule := s.schedule, fresh := s.fresh + 1 } := by
  cases b <;> rfl

/-! ## The statements -/

/-- Settles O2: both formats give back each field that they pack. -/
theorem decodeOfEncode : Obligations.DecodeOfEncode := by
  unfold Obligations.DecodeOfEncode
  intro cfg i hwf
  cases hb : i.block with
  | fnv1Core =>
    obtain ⟨op, d, rfl⟩ := eq_coreInstr_of_block (v := .fnv1) hb
    exact decode_encode_coreInstr cfg .fnv1 op d
  | fnv1aCore =>
    obtain ⟨op, d, rfl⟩ := eq_coreInstr_of_block (v := .fnv1a) hb
    exact decode_encode_coreInstr cfg .fnv1a op d
  | wrapper =>
    obtain ⟨v, dseed, n, b, l, k, rfl⟩ := eq_runInstr_of_block hb
    exact decode_encode_runInstr v dseed k ((runInstr_wellFormed ..).symm.trans hwf)

/-- Settles O3: a word of the port's width is the word of the instruction that it decodes to, and there is no other
instruction that it decodes to. -/
theorem encodeOfDecode : Obligations.EncodeOfDecode := by
  unfold Obligations.EncodeOfDecode
  intro cfg b w i h
  refine ⟨decode_block h, ?_⟩
  have hw := lt_of_decode_ok h
  cases b with
  | fnv1Core =>
    obtain ⟨op, d, hd, he⟩ := decode_coreBlock_eq cfg .fnv1 hw
    cases hd.symm.trans h
    exact ⟨coreInstr_wellFormed .., he⟩
  | fnv1aCore =>
    obtain ⟨op, d, hd, he⟩ := decode_coreBlock_eq cfg .fnv1a hw
    cases hd.symm.trans h
    exact ⟨coreInstr_wellFormed .., he⟩
  | wrapper =>
    obtain ⟨v, dseed, n, b, l, k, hd, hf, he⟩ := decode_wrapper_eq cfg hw
    cases hd.symm.trans h
    exact ⟨(runInstr_wellFormed ..).trans hf, he⟩

/-- Settles O4: decoding is total, acceptance and waiting both end in a next state, and an ignored field stands in
neither the update of a core nor the seed of a job. -/
theorem everyWordIsACommand : Obligations.EveryWordIsACommand := by
  unfold Obligations.EveryWordIsACommand
  refine ⟨fun cfg b w hw => ?_, exec_next, fun d d' s => ⟨rfl, rfl, rfl, rfl⟩, fun d d' s hd => ⟨?_, ?_⟩,
    fun n b l k k' s => ⟨rfl, rfl⟩⟩
  · obtain ⟨i, hi⟩ := decode_ok_of_lt hw
    exact ⟨i, hi, decode_block hi⟩
  · exact congrArg (acceptFnv1 · s) (coreAbsorb_congr hd s.cfg .fnv1)
  · exact congrArg (acceptFnv1a · s) (coreAbsorb_congr hd s.cfg .fnv1a)

/-- Settles O5: by induction on the text, from the seed that the first command leaves. -/
theorem pseudoInstructionsHashText : Obligations.PseudoInstructionsHashText := by
  unfold Obligations.PseudoInstructionsHashText
  intro v text k s
  exact ⟨runCommands_seed_contBytes (fun _ _ => rfl) text s, runCommands_seed_contBytes (fun _ _ => rfl) text s,
    runCommands_contBytes v text s, fun _ _ _ => rfl⟩

/-- Settles O27: by what an acceptance leaves of the port, and of the wait of the core. -/
theorem acceptedWordLeavesPort : Obligations.AcceptedWordLeavesPort := by
  unfold Obligations.AcceptedWordLeavesPort
  intro i s t hr h
  refine ⟨exec_empties_port hr h, ?_, ?_, fun hb hi => exec_other_wait (v := .fnv1) hb hi hr h,
    fun hb hi => exec_other_wait (v := .fnv1a) hb hi hr h⟩
  · rintro d rfl
    exact exec_absorb_wait (v := .fnv1) hr h
  · rintro d rfl
    exact exec_absorb_wait (v := .fnv1a) hr h

/-- Settles O1: six fixed words. -/
theorem sampleWordsDecode : Obligations.SampleWordsDecode := by
  unfold Obligations.SampleWordsDecode
  exact ⟨rfl, rfl, rfl, rfl, rfl, rfl⟩

/-- Settles O24: an instruction is accepted at a ready port only. -/
theorem notReadyPortWaits : Obligations.NotReadyPortWaits := by
  unfold Obligations.NotReadyPortWaits
  exact fun i s => exec_waits

/-- Settles O46: the word stands on a ready port whose edge is next, so O45 applies. -/
theorem presentedWordRunsNext : Obligations.PresentedWordRunsNext := by
  unfold Obligations.PresentedWordRunsNext
  intro b w i s hd
  rw [← presentNext_begin]
  exact stepRunsDecodedInstruction b w i (presentNext b w s) rfl (presentNext_ready ..) (presentNext_port ..)
    (by rw [presentNext_cfg, hd])

end Sys2Proof.Machine

/-! # The mixing datapath: the proofs

The shift-adder tree is multiplication by `FNV_PRIME` modulo `2^64`, and the XOR-fold stage is its own inverse. The laws
of the mixing steps follow from these two, and those of the repetition functions from `iter` as Mathlib's iterate. -/
namespace Sys2Proof.Machine

/-! ## The shift-adder tree (spec/40_mixing_datapath.md R111, R112) -/

theorem shiftSum_eq_mul (h : Word) : shiftSum h = h * 0x100000001b2#64 := by
  simp only [shiftSum, BitVec.shiftLeft_eq_mul_twoPow, ← mul_add]
  rfl

/-- The weight 1 of `h` itself completes the prime. -/
theorem mulPrime_eq_mul (h : Word) : mulPrime h = h * fnvPrime := by
  have hw : fnvPrime = 1 + 0x100000001b2#64 := by decide
  rw [mulPrime, shiftSum_eq_mul, hw, mul_add, mul_one]

@[simp] theorem mulPrime_zero : mulPrime 0#64 = 0#64 := by decide

theorem toNat_mulPrime (h : Word) : (mulPrime h).toNat = h.toNat * 0x100000001b3 % 2 ^ 64 := by
  rw [mulPrime_eq_mul, BitVec.toNat_mul]
  rfl

/-- The low bits of the product depend on the low bits of `h` only (R118 item 4). -/
theorem toNat_mulPrime_mod {k : Nat} (hk : k ≤ 64) (h : Word) :
    (mulPrime h).toNat % 2 ^ k = h.toNat % 2 ^ k * 0x100000001b3 % 2 ^ k := by
  rw [toNat_mulPrime, Nat.mod_mod_of_dvd _ (pow_dvd_pow 2 hk), Nat.mod_mul_mod]

theorem mulPrime_mul_inverse (h : Word) : mulPrime h * 0xce965057aff6957b#64 = h := by
  have hi : fnvPrime * 0xce965057aff6957b#64 = 1 := by decide
  rw [mulPrime_eq_mul, mul_assoc, hi, mul_one]

theorem mulPrime_inverse_mul (h : Word) : mulPrime (h * 0xce965057aff6957b#64) = h := by
  rw [mulPrime_eq_mul, mul_right_comm, ← mulPrime_eq_mul, mulPrime_mul_inverse]

theorem mulPrime_bijective : Function.Bijective mulPrime :=
  Function.bijective_iff_has_inverse.mpr ⟨(· * 0xce965057aff6957b#64), mulPrime_mul_inverse, mulPrime_inverse_mul⟩

/-! ## The XOR-fold stage (R114) -/

@[simp] theorem xorFold_zero (h : Word) : xorFold h 0#8 = h := by
  simp [xorFold, zext64]

theorem xorFold_involutive (b : Byte) : Function.Involutive (xorFold · b) := fun h => by
  simp [xorFold]

theorem xorFold_high (h : Word) (b : Byte) : (xorFold h b).extractLsb' 8 56 = h.extractLsb' 8 56 := by
  ext i hi
  simp [xorFold, zext64]

theorem xorFold_low (h : Word) (b : Byte) : (xorFold h b).extractLsb' 0 8 = h.extractLsb' 0 8 ^^^ b := by
  ext i hi
  have hi' : i < 64 := by omega
  simp [xorFold, zext64, hi, hi']

theorem xorFold_injective (h : Word) : Function.Injective (xorFold h) := fun b c hbc => by
  have hlow := congrArg (BitVec.extractLsb' 0 8) hbc
  simpa only [xorFold_low, BitVec.xor_right_inj] using hlow

/-! ## The mixing steps (R115, R116, R118) -/

theorem mixOf_bijective (v : Variant) (b : Byte) : Function.Bijective (mixOf v · b) := by
  cases v with
  | fnv1 => exact (xorFold_involutive b).bijective.comp mulPrime_bijective
  | fnv1a => exact mulPrime_bijective.comp (xorFold_involutive b).bijective

theorem mixOf_injective (v : Variant) (h : Word) : Function.Injective (mixOf v h) := by
  cases v with
  | fnv1 => exact xorFold_injective (mulPrime h)
  | fnv1a => exact mulPrime_bijective.injective.comp (xorFold_injective h)

/-- On a zero byte the variants agree (R118 item 6). -/
@[simp] theorem mixOf_zero (v : Variant) (h : Word) : mixOf v h 0#8 = mulPrime h := by
  cases v <;> simp [mixOf, mix1, mix1a]

/-! ## Hashes and repetitions (R119, R120) -/

theorem iter_eq_iterate (n : Nat) (g : Word → Word) (k : Word) : iter n g k = g^[n] k := by
  induction n generalizing k with
  | zero => rfl
  | succ n ih => rw [iter, ih, Function.iterate_succ_apply]

theorem repeatOf_eq_iterate (v : Variant) (n : Nat) (s : List Byte) (k : Word) :
    repeatOf v n s k = (hashOf v s)^[n] k := by
  cases v <;> exact iter_eq_iterate ..

/-- A message of zero bytes multiplies the seed by the prime once per byte, in both variants (R217). -/
theorem hashOf_replicate_zero (v : Variant) (n : Nat) (k : Word) :
    hashOf v (List.replicate n 0#8) k = mulPrime^[n] k := by
  rw [hashOf_eq_foldBytes]
  induction n generalizing k with
  | zero => rfl
  | succ n ih => rw [List.replicate_succ, foldBytes, ih, mixOf_zero, Function.iterate_succ_apply]

/-! ## The statements -/

/-- Settles O6: the weights of the shifted copies add up to the prime less 1, and `h` itself is the seventh operand. -/
theorem shiftAdderTreeMultiplies : Obligations.ShiftAdderTreeMultiplies := by
  unfold Obligations.ShiftAdderTreeMultiplies
  refine ⟨fun _ => rfl, shiftSum_eq_mul, by decide, by decide, fun _ => rfl, fun h => ?_, mulPrime_eq_mul,
    toNat_mulPrime, by decide⟩
  simp only [mulPrime, shiftSum, add_assoc]

/-- Settles O8: the byte is zero-extended, so it reaches bits [7:0] only, and the tree is the multiplication. -/
theorem xorFoldAndMixingSteps : Obligations.XorFoldAndMixingSteps := by
  unfold Obligations.XorFoldAndMixingSteps
  refine ⟨fun h b => ⟨rfl, xorFold_high h b, xorFold_low h b, xorFold_zero h, xorFold_involutive b h⟩,
    fun h b => ?_, fun h b => mulPrime_eq_mul (xorFold h b), by decide⟩
  exact congrArg (xorFold · b) (mulPrime_eq_mul h)

/-- Settles O9: the prime is a unit modulo `2^64`, and the XOR-fold stage undoes itself. -/
theorem mixingIsBijective : Obligations.MixingIsBijective := by
  unfold Obligations.MixingIsBijective
  exact ⟨fun h => ⟨mulPrime_mul_inverse h, mulPrime_inverse_mul h⟩, mixOf_bijective, mixOf_injective⟩

/-- Settles O10: by the residue of the product, and by the fold of a zero byte as one multiplication. -/
theorem mixingLowBits : Obligations.MixingLowBits := by
  unfold Obligations.MixingLowBits
  refine ⟨fun k h h' hk hh => ?_, fun h => ?_, fun h b => xorFold_high (mulPrime h) b,
    fun h => ⟨mixOf_zero .fnv1 h, mixOf_zero .fnv1a h⟩, fun v n => ?_, fun n k => ?_, by decide⟩
  · rw [toNat_mulPrime_mod hk, hh, ← toNat_mulPrime_mod hk]
  · have hlow := toNat_mulPrime_mod (k := 8) (by decide) h
    omega
  · rw [hashOf_replicate_zero, Function.iterate_fixed mulPrime_zero]
  · exact (hashOf_replicate_zero .fnv1 n k).trans (hashOf_replicate_zero .fnv1a n k).symm

/-- Settles O11: a repetition is an iterate of the hash. -/
theorem repetitionIdentities : Obligations.RepetitionIdentities := by
  unfold Obligations.RepetitionIdentities
  intro v s k
  simp only [repeatOf_eq_iterate]
  refine ⟨rfl, rfl, rfl, fun n m => ?_⟩
  rw [add_comm, Function.iterate_add_apply]

/-- Settles O7: addition modulo `2^64` is associative, so the shape of the tree does not matter. -/
theorem adderTreeIsMulPrime : Obligations.AdderTreeIsMulPrime := by
  unfold Obligations.AdderTreeIsMulPrime
  intro h
  simp only [adderTree, mulPrime, shiftSum, add_assoc]

end Sys2Proof.Machine

/-! # The commands of a core and their streams: the proofs

What one accepted command does to the core of its variant and leaves alone, for both variants at once. A command of a
stream without `INITD` and `INITS` is a `NOP` or an `ABSORB`, so the stream goes on with the hash from `hashval`. -/
namespace Sys2Proof.Machine

/-! ## One command on its port (spec/41_fnv1_core.md, spec/42_fnv1a_core.md) -/

/-- The word `{OP, DATA}` (R81) on a core's port is that command of its variant. -/
theorem decode_commandWord (cfg : Config) (v : Variant) (op : CoreOp) (d : Word) :
    decode cfg (coreBlock v) (opCode op * 2 ^ 64 + d.toNat) = .ok (coreInstr v op d) := by
  rw [← packCommand, ← encode_coreInstr cfg v, decode_encode_coreInstr]

/-- The state outside the stand-alone core of a variant and its port is unchanged. -/
def sameOutsideCore : Variant → State → State → Prop
  | .fnv1 => sameOutsideFnv1
  | .fnv1a => sameOutsideFnv1a

theorem exec_coreInstr_frame {v : Variant} {op : CoreOp} {d : Word} {s t : State}
    (h : exec (coreInstr v op d) s = .next t) : sameOutsideCore v s t := by
  obtain ⟨hfnv1, hfnv1a⟩ := coreCommandFrame _ s t h
  cases v
  · exact hfnv1 (coreInstr_block ..)
  · exact hfnv1a (coreInstr_block ..)

/-- A ready core completes each of its commands, and nothing outside it changes. -/
theorem exec_coreInstr_completes {v : Variant} {s : State} (hr : s.ready (coreBlock v) = true) (op : CoreOp)
    (d : Word) : ∃ t, exec (coreInstr v op d) s = .next t ∧
      standalone v t = coreUpdate s.cfg v d op (standalone v s) ∧ sameOutsideCore v s t := by
  have h := exec_coreInstr_ready ((ready_coreBlock_iff v s).mp hr) op d
  exact ⟨_, h, by simp, exec_coreInstr_frame h⟩

/-- The `hashval` that such a command leaves. -/
theorem exec_coreInstr_hashval {v : Variant} {s : State} (hr : s.ready (coreBlock v) = true) {op : CoreOp}
    {d k : Word} (hk : (coreUpdate s.cfg v d op (standalone v s)).hashval = k) :
    ∃ t, exec (coreInstr v op d) s = .next t ∧ (standalone v t).hashval = k ∧ sameOutsideCore v s t := by
  obtain ⟨t, ht, hc, hf⟩ := exec_coreInstr_completes hr op d
  exact ⟨t, ht, by rw [hc, hk], hf⟩

/-- The byte of an `ABSORB` is `DATA[7:0]` (R85 item 1). -/
theorem absorbByte_eq_extractLsb' (d : Word) : absorbByte d = d.extractLsb' 0 8 :=
  BitVec.setWidth_eq_extractLsb' (by decide)

/-! ## Streams without `INITD` and `INITS` (R134, R135, R154, R155) -/

/-- The commands that start no new message: a `NOP` has no byte, an `ABSORB` has one. -/
theorem bytesOf_cases {v : Variant} {i : Instr} {bs : List Byte} (h : bytesOf v i = some bs) :
    ∃ d, (i = coreInstr v .nop d ∧ bs = []) ∨ (i = coreInstr v .absorb d ∧ bs = [absorbByte d]) := by
  cases i with
  | fnv1Nop d | fnv1aNop d =>
    obtain ⟨rfl, ⟨⟩⟩ := Option.ite_none_right_eq_some.mp h
    exact ⟨d, .inl ⟨rfl, rfl⟩⟩
  | fnv1Absorb d | fnv1aAbsorb d =>
    obtain ⟨rfl, ⟨⟩⟩ := Option.ite_none_right_eq_some.mp h
    exact ⟨d, .inr ⟨rfl, rfl⟩⟩
  | _ => cases h

theorem messageOf_cons {v : Variant} {i : Instr} {cs : List Instr} {bytes : List Byte}
    (h : messageOf v (i :: cs) = some bytes) :
    ∃ b bs, bytesOf v i = some b ∧ messageOf v cs = some bs ∧ bytes = b ++ bs := by
  unfold messageOf at h
  split at h
  · cases h
    exact ⟨_, _, ‹_›, ‹_›, rfl⟩
  · cases h

theorem foldBytes_eq_foldl (f : Word → Byte → Word) (k : Word) (s : List Byte) : foldBytes f k s = s.foldl f k := by
  induction s generalizing k with
  | nil => rfl
  | cons b s ih => exact ih (f k b)

theorem hashOf_nil (v : Variant) (k : Word) : hashOf v [] k = k := by
  cases v <;> rfl

theorem hashOf_singleton (v : Variant) (b : Byte) (k : Word) : hashOf v [b] k = mixOf v k b := by
  cases v <;> rfl

/-- The hash of a concatenation goes on from the hash of its first part. -/
theorem hashOf_append (v : Variant) (s t : List Byte) (k : Word) :
    hashOf v (s ++ t) k = hashOf v t (hashOf v s k) := by
  simp only [hashOf_eq_foldBytes, foldBytes_eq_foldl, List.foldl_append]

/-- A command that starts no new message goes on with the hash from `hashval`. -/
theorem coreUpdate_hashval_of_bytesOf {v : Variant} {i : Instr} {bs : List Byte} (h : bytesOf v i = some bs) :
    ∃ op d, i = coreInstr v op d ∧ ∀ cfg c, (coreUpdate cfg v d op c).hashval = hashOf v bs c.hashval := by
  obtain ⟨d, ⟨rfl, rfl⟩ | ⟨rfl, rfl⟩⟩ := bytesOf_cases h
  · exact ⟨.nop, d, rfl, fun _ _ => (hashOf_nil ..).symm⟩
  · exact ⟨.absorb, d, rfl, fun _ _ => (hashOf_singleton ..).symm⟩

/-- A stream that starts no new message goes on with the hash from `hashval`. -/
theorem runCommands_continues {v : Variant} {cs : List Instr} {bytes : List Byte}
    (h : messageOf v cs = some bytes) (s : State) :
    ∃ t, runCommands cs s = .next t ∧ (standalone v t).hashval = hashOf v bytes (standalone v s).hashval := by
  induction cs generalizing bytes s with
  | nil =>
    cases h
    exact ⟨s, rfl, (hashOf_nil ..).symm⟩
  | cons i cs ih =>
    obtain ⟨b, bs, hb, hbs, rfl⟩ := messageOf_cons h
    obtain ⟨op, d, rfl, hop⟩ := coreUpdate_hashval_of_bytesOf hb
    obtain ⟨u, hu, hc⟩ := runCommands_coreInstr v op d cs s
    obtain ⟨t, ht, hh⟩ := ih hbs u
    exact ⟨t, hu.trans ht, by rw [hh, hc, hop, hashOf_append]⟩

/-- From a core whose `hashval` is `k` the stream leaves the hash of its bytes from `k`, and `digest` shows it when the
core is ready again (R22). -/
theorem runCommands_shows_hash {v : Variant} {cs : List Instr} {bytes : List Byte} {k : Word} {s : State}
    (h : messageOf v cs = some bytes) (hk : (standalone v s).hashval = k) :
    ∃ t, runCommands cs s = .next t ∧ (standalone v t).hashval = hashOf v bytes k ∧
      ∀ n, digestOf false (coreBlock v) n (standalone v (makeReady (coreBlock v) t)) = hashOf v bytes k := by
  obtain ⟨t, ht, hh⟩ := runCommands_continues h s
  rw [hk] at hh
  refine ⟨t, ht, hh, fun n => ?_⟩
  rw [standalone_makeReady, digestOf_ready rfl, hh]

/-- The same after a command that sets `hashval` to `k`. -/
theorem runCommands_seed_shows_hash {v : Variant} {op : CoreOp} {d k : Word} {cs : List Instr} {bytes : List Byte}
    (h : messageOf v cs = some bytes) (hop : ∀ cfg c, (coreUpdate cfg v d op c).hashval = k) (s : State) :
    ∃ t, runCommands (coreInstr v op d :: cs) s = .next t ∧ (standalone v t).hashval = hashOf v bytes k ∧
      ∀ n, digestOf false (coreBlock v) n (standalone v (makeReady (coreBlock v) t)) = hashOf v bytes k := by
  obtain ⟨u, hu, hc⟩ := runCommands_coreInstr v op d cs s
  rw [hu]
  exact runCommands_shows_hash h (by rw [hc, hop])

/-- The reset event of a core loads its variant's offset basis (R29, R260). -/
theorem standalone_resetBlock (v : Variant) (s : State) :
    standalone v (resetBlock (coreBlock v) s) = coreReset (initOf v) := by
  cases v <;> rfl

/-! ## The statements -/

/-- Settles O14: the update of a `NOP` is the identity. -/
theorem fnv1NopKeepsHashval : Obligations.Fnv1NopKeepsHashval := by
  unfold Obligations.Fnv1NopKeepsHashval
  intro data s
  exact ⟨decode_commandWord s.cfg .fnv1 .nop data, fun hr => exec_coreInstr_completes (v := .fnv1) hr .nop data⟩

/-- Settles O15: the update of an `INITD` loads `FNV1_INIT`. -/
theorem fnv1InitdLoadsBasis : Obligations.Fnv1InitdLoadsBasis := by
  unfold Obligations.Fnv1InitdLoadsBasis
  intro data s
  exact ⟨decode_commandWord s.cfg .fnv1 .initd data,
    fun hr => exec_coreInstr_hashval (v := .fnv1) (op := .initd) hr rfl⟩

/-- Settles O16: the update of an `INITS` loads `DATA`. -/
theorem fnv1InitsLoadsSeed : Obligations.Fnv1InitsLoadsSeed := by
  unfold Obligations.Fnv1InitsLoadsSeed
  intro seed s
  exact ⟨decode_commandWord s.cfg .fnv1 .inits seed,
    fun hr => exec_coreInstr_hashval (v := .fnv1) (op := .inits) hr rfl⟩

/-- Settles O17: the update of an `ABSORB` is `mix1`, whose tree is the multiplication by the prime. -/
theorem fnv1AbsorbMixes : Obligations.Fnv1AbsorbMixes := by
  unfold Obligations.Fnv1AbsorbMixes
  intro data s
  refine ⟨decode_commandWord s.cfg .fnv1 .absorb data,
    fun hr => exec_coreInstr_hashval (v := .fnv1) (op := .absorb) hr ?_⟩
  calc mix1 s.fnv1.hashval (absorbByte data)
      = xorFold (s.fnv1.hashval * fnvPrime) (absorbByte data) := by rw [mix1, mulPrime_eq_mul]
    _ = xorFold (s.fnv1.hashval * fnvPrime) (data.extractLsb' 0 8) := by rw [absorbByte_eq_extractLsb']

/-- Settles O22: by induction on the commands, and by the hash of a concatenation. -/
theorem commandsContinueTheHash : Obligations.CommandsContinueTheHash := by
  unfold Obligations.CommandsContinueTheHash
  intro v cs bytes m k s hm hk
  obtain ⟨t, ht, hh⟩ := runCommands_continues hm s
  rw [hk] at hh
  exact ⟨t, ht, hh, by rw [hh, hashOf_append]⟩

/-- Settles O23: the stream continues the hash from the seed that the reset, the `INITD` or the `INITS` leaves. -/
theorem commandStreamComputesHash : Obligations.CommandStreamComputesHash := by
  unfold Obligations.CommandStreamComputesHash
  intro v cs bytes data k s hm
  refine ⟨?_, runCommands_seed_shows_hash hm (fun _ _ => rfl) s, runCommands_seed_shows_hash hm (fun _ _ => rfl) s⟩
  obtain ⟨t, ht⟩ := runCommands_shows_hash hm (congrArg CoreRegs.hashval (standalone_resetBlock v s))
  exact ⟨_, t, rfl, ht⟩

end Sys2Proof.Machine

/-! # The commands of the fnv1a_hash_core: the proofs

The word is decoded by `decode_commandWord`, and an accepted command is its `coreUpdate`; only the `ABSORB` has
arithmetic of its own. -/
namespace Sys2Proof.Machine

/-- Settles O18: the update of a `NOP` is the identity. -/
theorem fnv1aNopKeepsHashval : Obligations.Fnv1aNopKeepsHashval := by
  unfold Obligations.Fnv1aNopKeepsHashval
  intro data s
  exact ⟨decode_commandWord s.cfg .fnv1a .nop data, fun hr => exec_coreInstr_completes (v := .fnv1a) hr .nop data⟩

/-- Settles O19: the update of an `INITD` loads `FNV1A_INIT`. -/
theorem fnv1aInitdLoadsBasis : Obligations.Fnv1aInitdLoadsBasis := by
  unfold Obligations.Fnv1aInitdLoadsBasis
  intro data s
  exact ⟨decode_commandWord s.cfg .fnv1a .initd data,
    fun hr => exec_coreInstr_hashval (v := .fnv1a) (op := .initd) hr rfl⟩

/-- Settles O20: the update of an `INITS` loads `DATA`. -/
theorem fnv1aInitsLoadsSeed : Obligations.Fnv1aInitsLoadsSeed := by
  unfold Obligations.Fnv1aInitsLoadsSeed
  intro seed s
  exact ⟨decode_commandWord s.cfg .fnv1a .inits seed,
    fun hr => exec_coreInstr_hashval (v := .fnv1a) (op := .inits) hr rfl⟩

/-- Settles O21: the update of an `ABSORB` is `mix1a`, whose tree multiplies the folded word by the prime. -/
theorem fnv1aAbsorbMixes : Obligations.Fnv1aAbsorbMixes := by
  unfold Obligations.Fnv1aAbsorbMixes
  intro data s
  refine ⟨decode_commandWord s.cfg .fnv1a .absorb data,
    fun hr => exec_coreInstr_hashval (v := .fnv1a) (op := .absorb) hr ?_⟩
  calc mix1a s.fnv1a.hashval (absorbByte data)
      = xorFold s.fnv1a.hashval (absorbByte data) * fnvPrime := mulPrime_eq_mul _
    _ = xorFold s.fnv1a.hashval (data.extractLsb' 0 8) * fnvPrime := by rw [absorbByte_eq_extractLsb']

end Sys2Proof.Machine

/-! # The repeat wrapper: its START event and the steps of its sequencer

The four jobs are `runInstr` of a variant and a seed form, so one lemma gives their word and one their START event.
Each step of the sequencer is an equation for the edge or the response that performs it. -/
namespace Sys2Proof.Machine

/-! ## The word and the START event of a job (R171 to R174) -/

/-- `OP = {DSEED, VAR}` of a job (R84). -/
def jobOp : Variant → Bool → Nat
  | .fnv1, false => 0
  | .fnv1a, false => 1
  | .fnv1, true => 2
  | .fnv1a, true => 3

/-- The word `{OP, COUNT, BASE, LEN, SEED}` (R82) on the job port is that job. -/
theorem decode_jobWord {cfg : Config} {n base len : Nat} (v : Variant) (dseed : Bool) (seed : Word)
    (hf : jobFits cfg n base len = true) :
    decode cfg .wrapper (jobOp v dseed * 2 ^ (64 + cfg.lenW + cfg.addrW + cfg.cntW) +
      n * 2 ^ (64 + cfg.lenW + cfg.addrW) + base * 2 ^ (64 + cfg.lenW) + len * 2 ^ 64 + seed.toNat) =
      .ok (runInstr v dseed n base len seed) := by
  have hword : encode cfg (runInstr v dseed n base len seed) = packJob cfg (jobOp v dseed) n base len seed := by
    cases v <;> cases dseed <;> rfl
  rw [← jobOpLo, ← packJob, ← hword, decode_encode_runInstr v dseed seed hf]

@[simp] theorem startRegs_core (cfg : Config) (v : Variant) (k : Word) (n b l : Nat) (w : WrapperRegs) (u : Variant) :
    (startRegs cfg v k n b l w).core u = w.core u := by
  cases u <;> rfl

/-- An idle wrapper completes the START event of each job whose fields fit, and nothing outside it changes. -/
theorem exec_runInstr_starts {n base len : Nat} {s : State} (v : Variant) (dseed : Bool) (seed : Word)
    (hf : jobFits s.cfg n base len = true) (hp : s.wrap.phase = .idle) :
    ∃ t, exec (runInstr v dseed n base len seed) s = .next t ∧
      t.wrap = { phase := .check, var := v, cnt := n, base := base, len := len, idx := 0,
                 chain := jobSeed v dseed seed, done := false, c1 := s.wrap.c1, c1a := s.wrap.c1a } ∧
      t.busy = true ∧ t.jobReady false = false ∧ sameOutsideWrapper s t := by
  have hx := (exec_runInstr v dseed n base len seed s).trans (acceptJob_ready hp)
  obtain ⟨hframe, -⟩ := exec_job_frame (by cases v <;> cases dseed <;> rfl) hx
  obtain ⟨hcnt, hbase, hlen⟩ := startRegs_of_fits hf v (jobSeed v dseed seed) s.wrap
  refine ⟨_, hx, ?_, rfl, rfl, hframe⟩
  conv_rhs => rw [← hcnt, ← hbase, ← hlen]
  rfl

/-! ## The sequencer's steps (R175 to R179) -/

section
variable {s : State}

theorem runEvent_edge_check (hp : s.wrap.phase = .check) (hw : s.wrap.selected.wait = 0) :
    runEvent (.edge .wrapper) s = .next (s.setWrap (stepCheck s.wrap)) :=
  (runEvent_edge_busy (by simp [hp])).trans (sequencerEdge_check hw hp)

theorem runEvent_edge_endOfPass (hp : s.wrap.phase = .byte) (hw : s.wrap.selected.wait = 0)
    (hi : s.wrap.idx = s.wrap.len) :
    runEvent (.edge .wrapper) s = .next (s.setWrap (stepEndOfPass s.cfg s.wrap)) :=
  (runEvent_edge_busy (by simp [hp])).trans (sequencerEdge_endOfPass hw hp hi)

theorem runEvent_edge_byteRead (hp : s.wrap.phase = .byte) (hw : s.wrap.selected.wait = 0)
    (hi : s.wrap.idx ≠ s.wrap.len) : runEvent (.edge .wrapper) s = stepByteRead s :=
  (runEvent_edge_busy (by simp [hp])).trans (sequencerEdge_byteRead hw hp hi)

end

theorem stepCheck_phase (w : WrapperRegs) : (stepCheck w).phase = if w.cnt = 0 then .idle else .byte := by
  by_cases h : w.cnt = 0
  · rw [stepCheck_ends h, if_pos h]
  · obtain ⟨hphase, -⟩ := stepCheck_seeds h
    rw [hphase, if_neg h]

/-- With a pass left to count, `CNT` is one less. -/
theorem stepEndOfPass_eq {cfg : Config} {w : WrapperRegs} (h0 : 0 < w.cnt) (h : w.cnt < 2 ^ cfg.cntW) :
    stepEndOfPass cfg w = { w with chain := w.selected.hashval, cnt := w.cnt - 1, phase := .check } := by
  rw [← stepEndOfPass_cnt h0 h]
  rfl

/-- The selected core after step RSP: the byte is mixed in, and the multiplication begins (log 8). -/
theorem stepRsp_core (cfg : Config) (b : Byte) (w : WrapperRegs) :
    (stepRsp cfg b w).core w.var =
      { hashval := mixOf w.var (w.core w.var).hashval b, wait := cfg.mixLatency - 1 } := by
  rw [stepRsp_selected, coreAbsorb, absorbByte_zext64]
  rfl

/-! ## The statements -/

/-- Settles O29: the job of FNV-1 with the explicit seed. -/
theorem runFnv1Starts : Obligations.RunFnv1Starts := by
  unfold Obligations.RunFnv1Starts
  intro n base len seed s hn hb hl
  have hf : jobFits s.cfg n base len = true := by simp [jobFits, hn, hb, hl]
  exact ⟨decode_jobWord .fnv1 false seed hf, exec_runInstr_starts .fnv1 false seed hf⟩

/-- Settles O30: the job of FNV-1a with the explicit seed. -/
theorem runFnv1aStarts : Obligations.RunFnv1aStarts := by
  unfold Obligations.RunFnv1aStarts
  intro n base len seed s hn hb hl
  have hf : jobFits s.cfg n base len = true := by simp [jobFits, hn, hb, hl]
  exact ⟨decode_jobWord .fnv1a false seed hf, exec_runInstr_starts .fnv1a false seed hf⟩

/-- Settles O31: the job of FNV-1 with the default seed. -/
theorem runFnv1DStarts : Obligations.RunFnv1DStarts := by
  unfold Obligations.RunFnv1DStarts
  intro n base len seed s hn hb hl
  have hf : jobFits s.cfg n base len = true := by simp [jobFits, hn, hb, hl]
  exact ⟨decode_jobWord .fnv1 true seed hf, exec_runInstr_starts .fnv1 true seed hf⟩

/-- Settles O32: the job of FNV-1a with the default seed. -/
theorem runFnv1aDStarts : Obligations.RunFnv1aDStarts := by
  unfold Obligations.RunFnv1aDStarts
  intro n base len seed s hn hb hl
  have hf : jobFits s.cfg n base len = true := by simp [jobFits, hn, hb, hl]
  exact ⟨decode_jobWord .fnv1a true seed hf, exec_runInstr_starts .fnv1a true seed hf⟩

/-- Settles O35: by the two cases of step CHECK. -/
theorem stepCheckSeedsOrEnds : Obligations.StepCheckSeedsOrEnds := by
  unfold Obligations.StepCheckSeedsOrEnds
  intro s hp hw
  rw [runEvent_edge_check hp hw]
  refine ⟨fun hc => ?_, fun hc => ?_⟩
  · rw [stepCheck_ends hc]
    rfl
  · obtain ⟨hphase, hidx, hdone, hcore, hother⟩ := stepCheck_seeds hc
    exact ⟨_, rfl, congrArg CoreRegs.hashval hcore, hother, hidx, hphase, stepCheck_var _, stepCheck_cnt _,
      stepCheck_base _, stepCheck_len _, stepCheck_chain _, hdone, rfl, by simp [sameOutsideWrapper, sameMemory]⟩

/-- Settles O36: `CNT` is in range and above 0, so its decrement does not wrap. -/
theorem stepEndOfPassChains : Obligations.StepEndOfPassChains := by
  unfold Obligations.StepEndOfPassChains
  intro s hp hw hi h0 hc
  rw [runEvent_edge_endOfPass hp hw hi, stepEndOfPass_eq h0 hc]
  rfl

/-- Settles O37: step BYTE-read at the sum of the address adder, in its two cases. -/
theorem stepByteReadAddresses : Obligations.StepByteReadAddresses := by
  unfold Obligations.StepByteReadAddresses
  intro s hp hw hi
  rw [runEvent_edge_byteRead hp hw hi]
  exact ⟨fun hv => stepByteRead_invalid hv, fun hv => stepByteRead_valid hv⟩

/-- Settles O38: the response is step RSP on the state without the answered read. -/
theorem stepRspAbsorbs : Obligations.StepRspAbsorbs := by
  unfold Obligations.StepRspAbsorbs
  intro r q b s hp hq hb hi hl
  exact ⟨_, respondOldest_absorbs hp hq hb, stepRsp_core .., stepRsp_other .., stepRsp_idx (by omega), rfl,
    stepRsp_var .., stepRsp_cnt .., stepRsp_base .., stepRsp_len .., stepRsp_chain .., stepRsp_done .., rfl, rfl,
    by simp [sameOutsideWrapper, sameMemory]⟩

/-- Settles O39: by the equation of each step. -/
theorem sequencerProgress : Obligations.SequencerProgress := by
  unfold Obligations.SequencerProgress
  intro s
  refine ⟨fun hp hw => ?_, fun hp hw hi => ?_, fun hp hw hi => ?_, fun hp hw => ?_, fun r q b hp hq hb => ?_,
    fun k hp hw => ?_⟩
  · exact ⟨_, runEvent_edge_check hp hw, stepCheck_phase _⟩
  · exact ⟨_, runEvent_edge_endOfPass hp hw hi, rfl⟩
  · rw [runEvent_edge_byteRead hp hw hi]
    cases hv : Memory.valid s.mem s.memAddr with
    | true => exact .inl ⟨_, stepByteRead_valid hv, rfl⟩
    | false => exact .inr ⟨hv, stepByteRead_invalid hv⟩
  · exact (runEvent_edge_busy (by simp [hp])).trans (sequencerEdge_rsp hw hp)
  · exact ⟨_, respondOldest_absorbs hp hq hb, rfl⟩
  · refine ⟨_, (runEvent_edge_busy hp).trans (sequencerEdge_waits (by simp [hw])), ?_, ?_⟩
    · simp
    · rw [State.setWrap_wrap, WrapperRegs.core_setCore_same, coreWait_of_wait hw]

end Sys2Proof.Machine

/-! # The invariant of every step: the proofs

Each update of the wrapper's registers keeps `WrapperInv`; the memory and the reads in flight have one lemma each. -/
namespace Sys2Proof.Machine

/-! ## The wrapper's registers (R23, R180) -/

section
variable {cfg : Config} {w : WrapperRegs}

theorem eq_otherVariant_of_ne {u v : Variant} (h : u ≠ v) : u = otherVariant v := by
  cases u <;> cases v
  · exact absurd rfl h
  · rfl
  · rfl
  · exact absurd rfl h

/-- Out of `PHASE = BYTE` no inner core is inside a multiplication. -/
theorem WrapperInv.core_ready (h : WrapperInv cfg w) (hp : w.phase ≠ .byte) (v : Variant) : (w.core v).wait = 0 := by
  by_cases hv : v = w.var
  · exact hv ▸ h.selected_ready hp
  · exact eq_otherVariant_of_ne hv ▸ h.other_ready

theorem WrapperInv.startRegs (h : WrapperInv cfg w) (hp : w.phase = .idle) (v : Variant) (k : Word) (n b l : Nat) :
    WrapperInv cfg (startRegs cfg v k n b l w) where
  cnt_fits := Nat.mod_lt _ (Nat.two_pow_pos _)
  base_fits := Nat.mod_lt _ (Nat.two_pow_pos _)
  len_fits := Nat.mod_lt _ (Nat.two_pow_pos _)
  idx_le := Nat.zero_le _
  pass_left := nofun
  reading := nofun
  running := fun _ => rfl
  other_ready := by simp [h.core_ready (by simp [hp])]
  selected_ready := fun _ => by simp [WrapperRegs.selected, h.core_ready (by simp [hp])]

/-- An update of the selected core that leaves it ready out of `PHASE = BYTE`. -/
theorem WrapperInv.setCore {c : CoreRegs} (h : WrapperInv cfg w) (hc : w.phase ≠ .byte → c.wait = 0) :
    WrapperInv cfg (w.setCore w.var c) where
  cnt_fits := by simp [h.cnt_fits]
  base_fits := by simp [h.base_fits]
  len_fits := by simp [h.len_fits]
  idx_le := by simp [h.idx_le]
  pass_left := by simpa using h.pass_left
  reading := by simpa using h.reading
  running := by simpa using h.running
  other_ready := by simp [WrapperRegs.core_setCore_other _ _ (otherVariant_ne w.var), h.other_ready]
  selected_ready := by simpa [WrapperRegs.selected] using hc

theorem WrapperInv.coreCycle (h : WrapperInv cfg w) : WrapperInv cfg (w.setCore w.var (coreWait w.selected)) :=
  h.setCore fun hp => by simp [coreWait, h.selected_ready hp]

theorem WrapperInv.stepCheck (h : WrapperInv cfg w) (hp : w.phase = .check) : WrapperInv cfg (stepCheck w) := by
  have hw : w.selected.wait = 0 := h.selected_ready (by simp [hp])
  unfold Machine.stepCheck
  split
  next => exact { h with
    pass_left := nofun, reading := nofun, running := fun hi => absurd rfl hi, selected_ready := fun _ => hw }
  next hc => exact { h.setCore (c := coreInits w.chain w.selected) (fun _ => hw) with
    idx_le := Nat.zero_le _
    pass_left := fun _ => by simpa using Nat.pos_of_ne_zero hc
    reading := nofun
    running := fun _ => by simpa using h.running (by simp [hp])
    selected_ready := fun hb => absurd rfl hb }

theorem WrapperInv.stepEndOfPass (h : WrapperInv cfg w) (hp : w.phase = .byte) (hw : w.selected.wait = 0) :
    WrapperInv cfg (stepEndOfPass cfg w) :=
  { h with
    cnt_fits := Nat.mod_lt _ (Nat.two_pow_pos _)
    pass_left := nofun
    reading := nofun
    running := fun _ => h.running (by simp [hp])
    selected_ready := fun _ => hw }

theorem WrapperInv.byteRead (h : WrapperInv cfg w) (hp : w.phase = .byte) (hw : w.selected.wait = 0)
    (hi : w.idx ≠ w.len) : WrapperInv cfg { w with phase := .rsp } :=
  { h with
    pass_left := fun _ => h.pass_left (.inl hp)
    reading := fun _ => lt_of_le_of_ne h.idx_le hi
    running := fun _ => h.running (by simp [hp])
    selected_ready := fun _ => hw }

/-- `IDX` was below `LEN`, so its increment neither wraps nor passes `LEN`. -/
theorem WrapperInv.stepRsp (h : WrapperInv cfg w) (hp : w.phase = .rsp) (b : Byte) :
    WrapperInv cfg (stepRsp cfg b w) where
  cnt_fits := by simp [h.cnt_fits]
  base_fits := by simp [h.base_fits]
  len_fits := by simp [h.len_fits]
  idx_le := by
    have hlt := h.reading hp
    rw [stepRsp_idx (Nat.lt_of_le_of_lt hlt h.len_fits), stepRsp_len]
    exact hlt
  pass_left := fun _ => by simpa using h.pass_left (.inr hp)
  reading := nofun
  running := fun _ => by simpa using h.running (by simp [hp])
  other_ready := by simp [stepRsp_other, h.other_ready]
  selected_ready := fun hb => absurd rfl hb

end

/-- An edge of a running job keeps the registers in range. -/
theorem sequencerEdge_keeps_wrapperInv {s t : State} (h : WrapperInv s.cfg s.wrap) (hx : sequencerEdge s = .next t) :
    WrapperInv s.cfg t.wrap := by
  obtain ⟨_, rfl⟩ | ⟨hw, ⟨_, rfl⟩ | ⟨hc, rfl⟩ | ⟨hb, _, rfl⟩ | ⟨hb, hi, _, rfl⟩ | ⟨_, rfl⟩⟩ :=
    sequencerEdge_cases hx
  · exact h.coreCycle
  · exact h
  · exact h.stepCheck hc
  · exact h.stepEndOfPass hb hw
  · exact h.byteRead hb hw hi
  · exact h

theorem takeResponse_keeps_wrapperInv {s : State} (h : WrapperInv s.cfg s.wrap) (b : Byte) :
    WrapperInv s.cfg (takeResponse b s).wrap := by
  by_cases hp : s.wrap.phase = .rsp
  · rw [takeResponse_rsp hp]
    exact h.stepRsp hp b
  · rwa [takeResponse_ignored hp]

theorem respondOldest_keeps_wrapperInv {s t : State} (h : WrapperInv s.cfg s.wrap) (hx : respondOldest s = .next t) :
    WrapperInv s.cfg t.wrap := by
  obtain ⟨_, rfl⟩ | ⟨_, _, _, _, rfl⟩ | ⟨_, _, b, _, hp, _, rfl⟩ := respondOldest_cases hx
  · exact h
  · exact h
  · exact h.stepRsp hp b

theorem step_keeps_wrapperInv {s t : State} (h : WrapperInv s.cfg s.wrap) (hs : step s = .next t) :
    WrapperInv s.cfg t.wrap := by
  cases step_cases hs with
  | wrapReset _ ht => exact ht ▸ wrapReset_inv s.cfg
  | start v k n b l _ hp _ ht => simpa [ht] using h.startRegs hp v k n b l
  | job _ _ hx => exact sequencerEdge_keeps_wrapperInv (s := s.begin) h hx
  | respond _ hx => exact respondOldest_keeps_wrapperInv (s := s.begin) h hx
  | stray b _ ht => exact ht ▸ takeResponse_keeps_wrapperInv (s := s.begin) h b
  | core1 _ _ _ ht | core1a _ _ _ ht | sample _ _ ht | flush _ ht | write _ _ _ _ ht | free _ _ _ ht
  | port _ _ _ ht | nothing _ ht => simpa [ht] using h

/-! ## The memory and its reads (R50, R55) -/

/-- A step leaves the memory, or is the host's write or free of a location (R52, R61). -/
theorem step_mem_cases {s t : State} (h : step s = .next t) :
    t.mem = s.mem ∨
    (∃ a b, nextEvent s = .writeMsg a b ∧ a < 2 ^ s.cfg.addrW ∧ t.mem = Memory.write s.mem a b) ∨
    (∃ a, nextEvent s = .freeMsg a ∧ a < 2 ^ s.cfg.addrW ∧ t.mem = Memory.free s.mem a) := by
  cases he : nextEvent s with
  | writeMsg a b =>
    rw [step_eq, he] at h
    by_cases ha : a < 2 ^ s.cfg.addrW
    · cases (runEvent_writeMsg (s := s.begin) ha b).symm.trans h
      exact .inr (.inl ⟨a, b, rfl, ha, rfl⟩)
    · simp [runEvent, ha] at h
  | freeMsg a =>
    rw [step_eq, he] at h
    by_cases ha : a < 2 ^ s.cfg.addrW
    · cases (runEvent_freeMsg (s := s.begin) ha).symm.trans h
      exact .inr (.inr ⟨a, rfl, ha, rfl⟩)
    · simp [runEvent, ha] at h
  | _ => exact .inl (step_keeps_mem h (by simp [he]) (by simp [he]))

/-- The memory stays canonical and inside the address space. -/
theorem step_keeps_mem_canonical {s t : State} (hwf : Memory.wf s.mem = true)
    (hin : Memory.within s.cfg.addrW s.mem = true) (h : step s = .next t) :
    Memory.wf t.mem = true ∧ Memory.within s.cfg.addrW t.mem = true := by
  obtain hm | ⟨a, b, _, ha, hm⟩ | ⟨a, _, _, hm⟩ := step_mem_cases h
  · exact hm ▸ ⟨hwf, hin⟩
  · exact hm ▸ ⟨Memory.write_wf _ a b hwf, Memory.write_within b _ ha hin⟩
  · exact hm ▸ ⟨Memory.free_wf _ a hwf, Memory.free_within a _ hin⟩

theorem State.memAddr_lt (s : State) : s.memAddr < 2 ^ s.cfg.addrW := Nat.mod_lt _ (Nat.two_pow_pos _)

/-- Picking the byte of a read keeps the addresses of the reads. -/
theorem map_addr_sample (m : Memory) (q : List MemRequest) (k : Nat) :
    (q.modify k (samplePending m)).map MemRequest.addr = q.map MemRequest.addr := by
  induction q generalizing k with
  | nil => simp
  | cons r q ih =>
    cases k with
    | zero => simp [samplePending]
    | succ k => simp [ih]

/-- Every read in flight after a step was in flight before, at the same address, or is that of step BYTE-read. -/
theorem step_read_addr {s t : State} (h : step s = .next t) :
    ∀ r ∈ t.inflight, r.addr ∈ s.inflight.map MemRequest.addr ∨ r.addr = s.memAddr := by
  intro r hr
  have hkept (hr : r ∈ s.inflight) : r.addr ∈ s.inflight.map MemRequest.addr ∨ r.addr = s.memAddr :=
    .inl (List.mem_map_of_mem hr)
  cases step_cases h with
  | job _ _ hx =>
    obtain ht | ⟨_, _, _, ht⟩ := sequencerEdge_reads hx
    · exact hkept (by simpa [ht] using hr)
    · obtain hr | hr := List.mem_append.mp (ht ▸ hr)
      · exact hkept hr
      · exact .inr (congrArg MemRequest.addr (List.mem_singleton.mp hr))
  | respond _ hx =>
    obtain ⟨_, rfl⟩ | ⟨_, _, hq, _, rfl⟩ | ⟨_, _, _, hq, _, _, rfl⟩ := respondOldest_cases hx
    · exact hkept hr
    · exact hkept (hq ▸ List.mem_cons_of_mem _ hr)
    · exact hkept (hq ▸ List.mem_cons_of_mem _ hr)
  | stray b _ ht =>
    obtain ⟨_, hw⟩ := takeResponse_writes b s.begin
    exact hkept (by simpa [ht, hw] using hr)
  | sample k _ ht =>
    refine .inl ?_
    rw [← map_addr_sample s.mem s.inflight k]
    exact List.mem_map_of_mem (by simpa [ht] using hr)
  | flush _ ht => simp [ht] at hr
  | core1 _ _ _ ht | core1a _ _ _ ht | wrapReset _ ht | start _ _ _ _ _ _ _ _ ht
  | write _ _ _ _ ht | free _ _ _ ht | port _ _ _ ht | nothing _ ht => exact hkept (by simpa [ht] using hr)

theorem step_keeps_reads_within {s t : State} (hq : ∀ r ∈ s.inflight, r.addr < 2 ^ s.cfg.addrW)
    (h : step s = .next t) : ∀ r ∈ t.inflight, r.addr < 2 ^ s.cfg.addrW := by
  intro r hr
  obtain hold | hnew := step_read_addr h r hr
  · obtain ⟨r', hr', ha⟩ := List.mem_map.mp hold
    exact ha ▸ hq r' hr'
  · exact hnew ▸ s.memAddr_lt

/-! ## The statement -/

/-- Settles O48: the wrapper's registers, the memory and the reads each by what a step can do to them. -/
theorem stepKeepsInvariant : Obligations.StepKeepsInvariant := by
  unfold Obligations.StepKeepsInvariant
  intro s t ⟨hcfg, hwrap, hwf, hin, hq⟩ h
  obtain ⟨hwf', hin'⟩ := step_keeps_mem_canonical hwf hin h
  have hc : t.cfg = s.cfg := step_cfg h
  exact
    { cfg_wf := hc ▸ hcfg
      wrap_inv := hc ▸ step_keeps_wrapperInv hwrap h
      mem_wf := hwf'
      mem_within := hc ▸ hin'
      reads_within := hc ▸ step_keeps_reads_within hq h }

end Sys2Proof.Machine

/-! # The running job: the proofs

A step that leaves a running job and its message alone never faults, and either keeps `JobInv` or is the step CHECK that
ends the job. The registers a running job never writes are settled by `step_keeps_job_regs`, so each step of the
sequencer has only the registers of its pass to look at. -/
namespace Sys2Proof.Machine

/-! ## The hash of a message, byte by byte and pass by pass (R119, R120) -/

/-- One more byte of the message is one more mixing step. -/
theorem hashOf_take_succ {msg : List Byte} {i : Nat} (v : Variant) (k : Word) (hi : i < msg.length) :
    hashOf v (msg.take (i + 1)) k = mixOf v (hashOf v (msg.take i) k) msg[i] := by
  rw [List.take_succ_eq_append_getElem hi, hashOf_append, hashOf_singleton]

/-- One more pass is one more hash of the message. -/
theorem repeatOf_succ (v : Variant) (n : Nat) (msg : List Byte) (k : Word) :
    repeatOf v (n + 1) msg k = hashOf v msg (repeatOf v n msg k) := by
  rw [repeatOf_eq_iterate, repeatOf_eq_iterate, Function.iterate_succ_apply']

/-! ## What a cycle of the countdown and an `INITS` leave in `hashval` -/

@[simp] theorem coreWait_hashval (c : CoreRegs) : (coreWait c).hashval = c.hashval := rfl
@[simp] theorem coreInits_hashval (seed : Word) (c : CoreRegs) : (coreInits seed c).hashval = seed := rfl

/-! ## Faults -/

theorem sequencerEdge_fault {s : State} {f : Fault} (h : sequencerEdge s = .fault f) :
    s.wrap.phase = .byte ∧ s.wrap.idx ≠ s.wrap.len ∧ Memory.valid s.mem s.memAddr = false := by
  unfold sequencerEdge at h
  split at h
  · split at h
    · cases h
    · cases h
    · rename_i hp
      split at h
      · cases h
      · rename_i hi
        refine ⟨hp, hi, eq_false_of_ne_true fun hv => ?_⟩
        rw [stepByteRead_valid hv] at h
        cases h
    · cases h
  · cases h

/-- Only step BYTE-read faults at an edge: no word does (R230). -/
theorem runEdge_fault {b : Block} {s : State} {f : Fault} (h : runEdge b s = .fault f) :
    s.wrap.phase = .byte ∧ s.wrap.idx ≠ s.wrap.len ∧ Memory.valid s.mem s.memAddr = false := by
  unfold runEdge at h
  split at h
  · split at h
    · unfold runWord at h
      split at h
      · obtain ⟨t, ht⟩ := exec_next _ s
        cases ht.symm.trans h
      · cases h
    · cases h
  · cases b with
    | wrapper => exact sequencerEdge_fault h
    | fnv1Core | fnv1aCore => cases h

theorem respondOldest_fault {s : State} {f : Fault} (h : respondOldest s = .fault f) :
    s.wrap.phase = .rsp ∧ ∃ r q, s.inflight = r :: q ∧ requestByte s.mem r = none := by
  unfold respondOldest at h
  split at h
  · cases h
  · rename_i r q hq
    split at h
    · rename_i hp
      split at h
      · cases h
      · exact ⟨hp, r, q, hq, ‹_›⟩
    · cases h

/-- What a step can fault on: the host's write or free of no location, step BYTE-read at an invalid address, or the
answer to a read whose location has no byte (R58). -/
theorem step_fault_cases {s : State} {f : Fault} (h : step s = .fault f) :
    (∃ a, ((∃ b, nextEvent s = .writeMsg a b) ∨ nextEvent s = .freeMsg a) ∧ ¬ a < 2 ^ s.cfg.addrW) ∨
    (s.wrap.phase = .byte ∧ s.wrap.idx ≠ s.wrap.len ∧ Memory.valid s.mem s.memAddr = false) ∨
    (s.wrap.phase = .rsp ∧ ∃ r q, s.inflight = r :: q ∧ requestByte s.mem r = none) := by
  rw [step_eq] at h
  cases he : nextEvent s with
  | writeMsg a b =>
    refine .inl ⟨a, .inl ⟨b, rfl⟩, fun ha => ?_⟩
    rw [he, runEvent_writeMsg (s := s.begin) ha] at h
    cases h
  | freeMsg a =>
    refine .inl ⟨a, .inr rfl, fun ha => ?_⟩
    rw [he, runEvent_freeMsg (s := s.begin) ha] at h
    cases h
  | edge b =>
    rw [he] at h
    exact .inr (.inl (runEdge_fault (s := s.begin) h))
  | respond =>
    rw [he] at h
    exact .inr (.inr (respondOldest_fault (s := s.begin) h))
  | present | withdraw | reset | sample | stray | flush | pause =>
    rw [he] at h
    cases h

/-! ## The message (R59, R266) -/

/-- An event that leaves the job alone leaves the bytes of its message. -/
theorem step_keeps_message {base : Nat} {msg : List Byte} {s t : State} (h : step s = .next t)
    (he : undisturbing s.cfg base msg.length (nextEvent s)) (hm : holdsMessage s.cfg s.mem base msg) :
    holdsMessage t.cfg t.mem base msg := by
  rw [step_cfg h]
  obtain hmem | ⟨a, b, hw, _, hmem⟩ | ⟨a, hf, _, hmem⟩ := step_mem_cases h
  · exact hmem ▸ hm
  · rw [hw] at he
    obtain ⟨_, hout⟩ := he
    exact fun j hj => hmem ▸ (Memory.read_write_other _ b (hout j hj).symm).trans (hm j hj)
  · rw [hf] at he
    obtain ⟨_, hout⟩ := he
    exact fun j hj => hmem ▸ (Memory.read_free_other _ (hout j hj).symm).trans (hm j hj)

/-! ## The steps of a running job -/

@[simp] theorem State.begin_memAddr (s : State) : s.begin.memAddr = s.memAddr := rfl

section
variable {v : Variant} {n base : Nat} {msg : List Byte} {k : Word} {u : CoreRegs} {s t : State}

/-- The job has ended with the digest (R180, R182). -/
structure JobEnded (v : Variant) (n : Nat) (msg : List Byte) (k : Word) (w : WrapperRegs) : Prop where
  idle : w.phase = .idle
  done : w.done = true
  cnt_zero : w.cnt = 0
  chain_eq : w.chain = repeatOf v n msg k

/-- In `PHASE = RSP` the byte of the one read in flight is byte `IDX` of the message, picked or not yet picked. -/
theorem JobInv.answer (h : JobInv v n base msg k u s) (hp : s.wrap.phase = .rsp) :
    ∃ (hi : s.wrap.idx < msg.length) (r : MemRequest), s.inflight = [r] ∧
      r.addr = byteAddr s.cfg base s.wrap.idx ∧ Memory.read s.mem r.addr = some msg[s.wrap.idx] ∧
      requestByte s.mem r = some msg[s.wrap.idx] := by
  obtain ⟨hi, r, hq, ha, hd⟩ := h.one_read hp
  obtain ⟨hcnt, -⟩ := h.in_pass (.inr hp)
  have hread : Memory.read s.mem r.addr = some msg[s.wrap.idx] := ha ▸ h.message hcnt s.wrap.idx hi
  refine ⟨hi, r, hq, ha, hread, ?_⟩
  obtain hd | hd := hd
  · rw [requestByte, hd, hread]
  · rw [List.getElem?_eq_getElem hi] at hd
    rw [requestByte, hd]

theorem JobInv.memAddr_eq (h : JobInv v n base msg k u s) : s.memAddr = byteAddr s.cfg base s.wrap.idx := by
  rw [State.memAddr, h.base_eq]

/-- A byte of the pass is left and its address is valid. -/
theorem JobInv.memAddr_valid (h : JobInv v n base msg k u s) (hp : s.wrap.phase = .byte)
    (hi : s.wrap.idx ≠ s.wrap.len) : Memory.valid s.mem s.memAddr = true := by
  obtain ⟨hcnt, -⟩ := h.in_pass (.inl hp)
  have hlt : s.wrap.idx < msg.length := lt_of_le_of_ne h.idx_le (h.len_eq ▸ hi)
  rw [h.memAddr_eq]
  exact Memory.valid_of_read (h.message hcnt s.wrap.idx hlt)

theorem JobInv.step_no_fault (h : JobInv v n base msg k u s) (he : undisturbing s.cfg base msg.length (nextEvent s))
    (f : Fault) : step s ≠ .fault f := by
  intro hs
  obtain ⟨a, hw, ha⟩ | ⟨hp, hi, hv⟩ | ⟨hp, r, q, hq, hb⟩ := step_fault_cases hs
  · obtain ⟨b, hw⟩ | hw := hw
    · rw [hw] at he
      exact ha he.1
    · rw [hw] at he
      exact ha he.1
  · rw [h.memAddr_valid hp hi] at hv
    cases hv
  · obtain ⟨hi, r', hq', _, _, hb'⟩ := h.answer hp
    rw [hq'] at hq
    cases hq
    rw [hb'] at hb
    cases hb

/-- The invariants after a step that does not end the job, from those of them that speak of the pass and its read. -/
theorem JobInv.of_step (h : JobInv v n base msg k u s) (hs : step s = .next t)
    (he : undisturbing s.cfg base msg.length (nextEvent s)) (hbusy : t.wrap.phase ≠ .idle)
    (hidx : t.wrap.idx ≤ msg.length) (hcnt : t.wrap.cnt ≤ s.wrap.cnt)
    (hchain : t.wrap.chain = repeatOf v (n - t.wrap.cnt) msg k)
    (hpass : t.wrap.phase = .byte ∨ t.wrap.phase = .rsp →
      0 < t.wrap.cnt ∧ (t.wrap.core v).hashval = hashOf v (msg.take t.wrap.idx) t.wrap.chain)
    (hone : t.wrap.phase = .rsp → t.wrap.idx < msg.length ∧
      ∃ r, t.inflight = [r] ∧ r.addr = byteAddr s.cfg base t.wrap.idx ∧
        (r.data = none ∨ r.data = msg[t.wrap.idx]?))
    (hno : t.wrap.phase ≠ .rsp → t.inflight = []) : JobInv v n base msg k u t := by
  have hr : nextEvent s ≠ .reset .wrapper := fun hr => by rw [hr] at he; exact he
  obtain ⟨hother, hvar, hbase, hlen⟩ := step_keeps_job_regs hs h.busy hr
  have hc : t.cfg = s.cfg := step_cfg hs
  have hdone : t.wrap.done = false := by
    by_contra hd
    obtain ⟨_, _, _, hidle, _⟩ := step_sets_done hs h.not_done (eq_true_of_ne_false hd)
    exact hbusy hidle
  exact
    { n_fits := hc ▸ h.n_fits
      len_fits := hc ▸ h.len_fits
      busy := hbusy
      var_eq := hvar.trans h.var_eq
      base_eq := hbase.trans h.base_eq
      len_eq := hlen.trans h.len_eq
      idx_le := hidx
      cnt_le := hcnt.trans h.cnt_le
      not_done := hdone
      other_eq := by rw [← h.var_eq, hother, h.var_eq, h.other_eq]
      chain_eq := hchain
      in_pass := hpass
      one_read := hc ▸ hone
      no_read := hno
      message := fun h0 => step_keeps_message hs he (h.message (Nat.lt_of_lt_of_le h0 hcnt)) }

/-- The same for a step that leaves the wrapper and its reads. -/
theorem JobInv.of_wrap_eq (h : JobInv v n base msg k u s) (hs : step s = .next t)
    (he : undisturbing s.cfg base msg.length (nextEvent s)) (hw : t.wrap = s.wrap) (hq : t.inflight = s.inflight) :
    JobInv v n base msg k u t :=
  h.of_step hs he
    (hbusy := hw ▸ h.busy)
    (hidx := hw ▸ h.idx_le)
    (hcnt := hw ▸ Nat.le_refl _)
    (hchain := hw ▸ h.chain_eq)
    (hpass := hw ▸ h.in_pass)
    (hone := hw ▸ hq ▸ h.one_read)
    (hno := hw ▸ hq ▸ h.no_read)

/-- The same when the memory picks the byte of a read. -/
theorem JobInv.of_sample {j : Nat} (h : JobInv v n base msg k u s) (hs : step s = .next t)
    (he : undisturbing s.cfg base msg.length (nextEvent s)) (hw : t.wrap = s.wrap)
    (hq : t.inflight = s.inflight.modify j (samplePending s.mem)) : JobInv v n base msg k u t := by
  by_cases hp : s.wrap.phase = .rsp
  · obtain ⟨hi, r, hr, ha, hread, _⟩ := h.answer hp
    cases j with
    | zero =>
      have hdata : (samplePending s.mem r).data = msg[s.wrap.idx]? := by
        rw [samplePending, hread, List.getElem?_eq_getElem hi]
      exact h.of_step hs he
        (hbusy := hw ▸ h.busy)
        (hidx := hw ▸ h.idx_le)
        (hcnt := hw ▸ Nat.le_refl _)
        (hchain := hw ▸ h.chain_eq)
        (hpass := hw ▸ h.in_pass)
        (hone := fun _ => hw ▸ ⟨hi, samplePending s.mem r, by simp [hq, hr], ha, .inr hdata⟩)
        (hno := fun hn => absurd (hw ▸ hp) hn)
    | succ j => exact h.of_wrap_eq hs he hw (by simp [hq, hr])
  · exact h.of_wrap_eq hs he hw (by simp [hq, h.no_read hp])

/-- At the end of a pass the selected core holds one more hash of the message than `CHAIN`. -/
theorem JobInv.digest_of_pass (h : JobInv v n base msg k u s) (hp : s.wrap.phase = .byte)
    (hi : s.wrap.idx = s.wrap.len) :
    0 < s.wrap.cnt ∧ (s.wrap.core v).hashval = repeatOf v (n - (s.wrap.cnt - 1)) msg k := by
  obtain ⟨hcnt, hhash⟩ := h.in_pass (.inl hp)
  have hpasses : n - (s.wrap.cnt - 1) = n - s.wrap.cnt + 1 := by
    have := h.cnt_le
    omega
  refine ⟨hcnt, ?_⟩
  rw [hhash, hi, h.len_eq, List.take_length, hpasses, repeatOf_succ, h.chain_eq]

/-- A cycle of the selected core's multiplication (log 8). -/
theorem JobInv.of_coreCycle (h : JobInv s.wrap.var n base msg k u s) (hs : step s = .next t)
    (he : undisturbing s.cfg base msg.length (nextEvent s))
    (ht : t = s.begin.setWrap (s.wrap.setCore s.wrap.var (coreWait s.wrap.selected))) :
    JobInv s.wrap.var n base msg k u t :=
  h.of_step hs he
    (hbusy := by simpa [ht] using h.busy)
    (hidx := by simpa [ht] using h.idx_le)
    (hcnt := by simp [ht])
    (hchain := by simpa [ht] using h.chain_eq)
    (hpass := by simpa [ht, WrapperRegs.selected] using h.in_pass)
    (hone := by simpa [ht] using h.one_read)
    (hno := by simpa [ht] using h.no_read)

/-- Step CHECK with a pass left: the selected core holds the hash of no bytes (R175). -/
theorem JobInv.of_seed (h : JobInv s.wrap.var n base msg k u s) (hs : step s = .next t)
    (he : undisturbing s.cfg base msg.length (nextEvent s)) (hp : s.wrap.phase = .check) (h0 : s.wrap.cnt ≠ 0)
    (ht : t = s.begin.setWrap (stepCheck s.wrap)) : JobInv s.wrap.var n base msg k u t := by
  obtain ⟨hphase, hidx, _, hcore, _⟩ := stepCheck_seeds h0
  exact h.of_step hs he
    (hbusy := by simp [ht, hphase])
    (hidx := by simp [ht, hidx])
    (hcnt := by simp [ht])
    (hchain := by simpa [ht] using h.chain_eq)
    (hpass := fun _ => by simpa [ht, hidx, hcore, hashOf_nil] using Nat.pos_of_ne_zero h0)
    (hone := by simp [ht, hphase])
    (hno := by simp [ht, h.no_read (by simp [hp])])

/-- Step BYTE at the end of a pass: the digest becomes `CHAIN` (R176). -/
theorem JobInv.of_endOfPass (h : JobInv s.wrap.var n base msg k u s) (hs : step s = .next t)
    (he : undisturbing s.cfg base msg.length (nextEvent s)) (hp : s.wrap.phase = .byte)
    (hi : s.wrap.idx = s.wrap.len) (ht : t = s.begin.setWrap (stepEndOfPass s.cfg s.wrap)) :
    JobInv s.wrap.var n base msg k u t := by
  obtain ⟨hcnt, hchain⟩ := h.digest_of_pass hp hi
  have hw : t.wrap = { s.wrap with chain := s.wrap.selected.hashval, cnt := s.wrap.cnt - 1, phase := .check } := by
    simp [ht, stepEndOfPass_eq hcnt (h.cnt_le.trans_lt h.n_fits)]
  exact h.of_step hs he
    (hbusy := by simp [hw])
    (hidx := by simpa [hw] using h.idx_le)
    (hcnt := by simp [hw])
    (hchain := hw ▸ hchain)
    (hpass := by simp [hw])
    (hone := by simp [hw])
    (hno := by simp [ht, h.no_read (by simp [hp])])

/-- Step BYTE-read: the one read of R51 is in flight (R177). -/
theorem JobInv.of_byteRead (h : JobInv s.wrap.var n base msg k u s) (hs : step s = .next t)
    (he : undisturbing s.cfg base msg.length (nextEvent s)) (hp : s.wrap.phase = .byte)
    (hi : s.wrap.idx ≠ s.wrap.len)
    (ht : t = (s.begin.setWrap { s.wrap with phase := .rsp }).setInflight
      (s.inflight ++ [{ addr := s.memAddr, data := none }])) : JobInv s.wrap.var n base msg k u t := by
  have hlt : s.wrap.idx < msg.length := lt_of_le_of_ne h.idx_le (h.len_eq ▸ hi)
  have hq : s.inflight = [] := h.no_read (by simp [hp])
  exact h.of_step hs he
    (hbusy := by simp [ht])
    (hidx := by simpa [ht] using h.idx_le)
    (hcnt := by simp [ht])
    (hchain := by simpa [ht] using h.chain_eq)
    (hpass := fun _ => ht ▸ h.in_pass (.inl hp))
    (hone := fun _ => ht ▸ ⟨hlt, { addr := s.memAddr, data := none }, by simp [hq], h.memAddr_eq, .inl rfl⟩)
    (hno := by simp [ht])

/-- An edge of the running job keeps the invariants or is the step CHECK that ends it (R179). -/
theorem JobInv.of_edge (h : JobInv v n base msg k u s) (hs : step s = .next t)
    (he : undisturbing s.cfg base msg.length (nextEvent s)) (hx : sequencerEdge s.begin = .next t) :
    JobInv v n base msg k u t ∨ JobEnded v n msg k t.wrap := by
  have hv := h.var_eq
  subst hv
  obtain ⟨_, ht⟩ | ⟨_, ⟨hi, _⟩ | ⟨hp, ht⟩ | ⟨hp, hi, ht⟩ | ⟨hp, hi, _, ht⟩ | ⟨_, ht⟩⟩ := sequencerEdge_cases hx
  · exact .inl (h.of_coreCycle hs he ht)
  · exact absurd hi h.busy
  · by_cases h0 : s.wrap.cnt = 0
    · have hw : t.wrap = { s.wrap with done := true, phase := .idle } := by simp [ht, stepCheck_ends h0]
      exact .inr (hw ▸ ⟨rfl, rfl, h0, by simpa [h0] using h.chain_eq⟩)
    · exact .inl (h.of_seed hs he hp h0 ht)
  · exact .inl (h.of_endOfPass hs he hp hi ht)
  · exact .inl (h.of_byteRead hs he hp hi ht)
  · exact .inl (h.of_wrap_eq hs he (by simp [ht]) (by simp [ht]))

/-- A response to the running job (R178). -/
theorem JobInv.of_respond (h : JobInv v n base msg k u s) (hs : step s = .next t)
    (he : undisturbing s.cfg base msg.length (nextEvent s)) (hx : respondOldest s.begin = .next t) :
    JobInv v n base msg k u t := by
  have hv := h.var_eq
  subst hv
  by_cases hp : s.wrap.phase = .rsp
  · obtain ⟨hi, r, hq, _, _, hb⟩ := h.answer hp
    obtain ⟨hcnt, hhash⟩ := h.in_pass (.inr hp)
    cases hx.symm.trans (respondOldest_absorbs (s := s.begin) hp hq hb)
    have hidx : (stepRsp s.cfg msg[s.wrap.idx] s.wrap).idx = s.wrap.idx + 1 :=
      stepRsp_idx (Nat.lt_of_le_of_lt hi h.len_fits)
    exact h.of_step hs he
      (hbusy := by simp)
      (hidx := by simpa [hidx] using hi)
      (hcnt := by simp)
      (hchain := by simpa using h.chain_eq)
      (hpass := fun _ => by simpa [hidx, stepRsp_core, hashOf_take_succ _ _ hi, hhash] using hcnt)
      (hone := by simp)
      (hno := by simp)
  · cases hx.symm.trans (respondOldest_ignored (s := s.begin) hp)
    exact h.of_wrap_eq hs he rfl (by simp [h.no_read hp])

/-- A step that leaves the job and its message alone keeps the invariants or ends the job (R180). -/
theorem JobInv.step (h : JobInv v n base msg k u s) (he : undisturbing s.cfg base msg.length (nextEvent s))
    (hs : step s = .next t) : JobInv v n base msg k u t ∨ JobEnded v n msg k t.wrap := by
  cases step_cases hs with
  | job _ _ hx => exact h.of_edge hs he hx
  | respond _ hx => exact .inl (h.of_respond hs he hx)
  | sample j _ ht => exact .inl (h.of_sample hs he (by simp [ht]) (by rw [ht]; rfl))
  | start _ _ _ _ _ _ hidle => exact absurd hidle h.busy
  | wrapReset hr | stray _ hr | flush hr =>
    rw [hr] at he
    exact he.elim
  | core1 _ _ _ ht | core1a _ _ _ ht | write _ _ _ _ ht | free _ _ _ ht | port _ _ _ ht | nothing _ ht =>
    exact .inl (h.of_wrap_eq hs he (by simp [ht]) (by simp [ht]))

end

/-- The START event establishes the invariants (R171 to R174, R180). -/
theorem JobInv.of_start {v : Variant} {n base : Nat} {msg : List Byte} {k : Word} {s : State}
    (hf : jobFits s.cfg n base msg.length = true) (hq : s.inflight = [])
    (hm : 0 < n → holdsMessage s.cfg s.mem base msg) :
    JobInv v n base msg k (s.wrap.core (otherVariant v))
      ((s.setWrap (startRegs s.cfg v k n base msg.length s.wrap)).setPort .wrapper none) := by
  obtain ⟨hcnt, hbase, hlen⟩ := startRegs_of_fits hf v k s.wrap
  simp only [jobFits, Bool.and_eq_true, decide_eq_true_eq] at hf
  obtain ⟨⟨hn, -⟩, hl⟩ := hf
  exact
    { n_fits := hn
      len_fits := hl
      busy := nofun
      var_eq := rfl
      base_eq := hbase
      len_eq := hlen
      idx_le := Nat.zero_le _
      cnt_le := hcnt.le
      not_done := rfl
      other_eq := startRegs_core ..
      chain_eq := by
        rw [State.setPort_wrap, State.setWrap_wrap, hcnt, Nat.sub_self, repeatOf_eq_iterate]
        rfl
      in_pass := nofun
      one_read := nofun
      no_read := fun _ => hq
      message := fun h0 => hm (hcnt ▸ h0) }

/-! ## The statement -/

/-- Settles O57: the START event establishes `JobInv`, and a step that leaves the job alone keeps it or is the one that
ends the job. -/
theorem jobInvariantsHold : Obligations.JobInvariantsHold := by
  unfold Obligations.JobInvariantsHold
  refine ⟨fun v dseed n base msg seed s t hn hb hl hp hq hm hx => ?_, fun v n base msg k u s h he => ?_⟩
  · rw [exec_runInstr, acceptJob_ready hp] at hx
    cases hx
    exact JobInv.of_start (by simp [jobFits, hn, hb, hl]) hq hm
  · refine ⟨h.step_no_fault he, fun t hs => ?_⟩
    obtain ht | ht := h.step he hs
    · exact ⟨fun _ => ht, fun hi => absurd hi ht.busy⟩
    · exact ⟨fun hb => absurd ht.idle hb, fun _ => ⟨ht.done, ht.cnt_zero, ht.chain_eq⟩⟩

end Sys2Proof.Machine

/-! # The run of a job in the default order: the proofs

`JobRun` is the invariant of a running job together with its frame: since the START event only the wrapper's
registers, its reads and the model's counter have changed. The steps are counted by induction on the bytes left of a
pass and then on the passes left. -/
namespace Sys2Proof.Machine

/-! ## Runs of a busy wrapper -/

/-- `k` steps lead from `s` to `t`, and the wrapper is busy before each of them. -/
inductive BusyRun : Nat → State → State → Prop where
  | refl (s : State) : BusyRun 0 s s
  | head {k : Nat} {s t u : State} (hb : s.wrap.phase ≠ .idle) (hs : step s = .next t) (h : BusyRun k t u) :
      BusyRun (k + 1) s u

theorem BusyRun.single {s t : State} (hb : s.wrap.phase ≠ .idle) (hs : step s = .next t) : BusyRun 1 s t :=
  .head hb hs (.refl t)

theorem BusyRun.trans {j k : Nat} {s t u : State} (h : BusyRun j s t) (h' : BusyRun k t u) :
    BusyRun (j + k) s u := by
  induction h with
  | refl s => simpa using h'
  | @head i _ _ _ hb hs _ ih =>
    rw [Nat.add_right_comm]
    exact .head hb hs (ih h')

theorem BusyRun.run_eq {k : Nat} {s t : State} (h : BusyRun k s t) :
    Host.Core.run Sys2Proof.core k s = .next t := by
  induction h with
  | refl s => rfl
  | head _ hs _ ih => rw [core_run_next hs, ih]

theorem BusyRun.busy_before {j k : Nat} {s t : State} (h : BusyRun k s t) (hj : j < k) :
    ∃ u : State, Host.Core.run Sys2Proof.core j s = .next u ∧ u.wrap.phase ≠ .idle := by
  induction h generalizing j with
  | refl s => exact absurd hj (Nat.not_lt_zero j)
  | @head i s _ _ hb hs _ ih =>
    cases j with
    | zero => exact ⟨s, rfl, hb⟩
    | succ j =>
      obtain ⟨u, hu, hbu⟩ := ih (Nat.lt_of_succ_lt_succ hj)
      exact ⟨u, (core_run_next hs).trans hu, hbu⟩

/-! ## A running job and its frame -/

/-- A job and the state `start` that its START event left, with the core `other` that it does not use. -/
structure StartedJob where
  v : Variant
  n : Nat
  base : Nat
  msg : List Byte
  seed : Word
  other : CoreRegs
  start : State

/-- Only the wrapper's registers, its reads and the model's counter differ. -/
def onlyJobRan (s t : State) : Prop :=
  ∃ w q n, t = { s with wrap := w, inflight := q, fresh := n }

theorem onlyJobRan_refl (s : State) : onlyJobRan s s := ⟨s.wrap, s.inflight, s.fresh, rfl⟩

/-- A step that writes the wrapper's registers and its reads only, with nothing scheduled. -/
theorem onlyJobRan_step {s₀ s t : State} (hs : s₀.schedule = []) (h : onlyJobRan s₀ s)
    (ht : ∃ w q, t = (s.begin.setWrap w).setInflight q) : onlyJobRan s₀ t := by
  obtain ⟨_, _, n, rfl⟩ := h
  obtain ⟨w, q, rfl⟩ := ht
  exact ⟨w, q, n + 1, by simp [State.begin, State.setWrap, State.setInflight, hs]⟩

/-- The job runs, in a machine that was quiet at its start. -/
structure JobRun (J : StartedJob) (s : State) : Prop where
  quiet : Quiet J.start
  inv : JobInv J.v J.n J.base J.msg J.seed J.other s
  frame : onlyJobRan J.start s

section
variable {J : StartedJob} {s t : State}

theorem JobRun.cfg_eq (h : JobRun J s) : s.cfg = J.start.cfg := by
  obtain ⟨_, _, _, rfl⟩ := h.frame
  rfl

/-- The machine is quiet but for the reads of the job. -/
theorem JobRun.quiet_but_reads (h : JobRun J s) : Quiet (s.setInflight []) := by
  obtain ⟨_, _, _, rfl⟩ := h.frame
  exact { h.quiet with no_reads := rfl }

theorem JobRun.quiet_of_no_read (h : JobRun J s) (hp : s.wrap.phase ≠ .rsp) : Quiet s :=
  { h.quiet_but_reads with no_reads := h.inv.no_read hp }

/-- Out of `PHASE = RSP` the next step is the sequencer's. -/
theorem JobRun.step_eq_edge (h : JobRun J s) (hp : s.wrap.phase ≠ .rsp) : step s = sequencerEdge s.begin :=
  (h.quiet_of_no_read hp).step_busy h.inv.busy hp

/-- Such a step that does not end the job. -/
theorem JobRun.edge (h : JobRun J s) (hp : s.wrap.phase ≠ .rsp) (hx : sequencerEdge s.begin = .next t)
    (hb : t.wrap.phase ≠ .idle) : BusyRun 1 s t ∧ JobRun J t := by
  have hq := h.quiet_of_no_read hp
  have hs := (h.step_eq_edge hp).trans hx
  have he : nextEvent s = .edge .wrapper :=
    nextEvent_wrapper hq.schedule_empty hq.core1_inactive hq.core1a_inactive hq.no_reads hp (.inl h.inv.busy)
  refine ⟨.single h.inv.busy hs, h.quiet, ?_, onlyJobRan_step h.quiet.schedule_empty h.frame (sequencerEdge_writes hx)⟩
  exact (h.inv.of_edge hs (he ▸ trivial) hx).resolve_right fun hend => hb hend.idle

/-- In `PHASE = RSP` the next step is the memory's answer to the job's one read. -/
theorem JobRun.respond (h : JobRun J s) (hp : s.wrap.phase = .rsp) :
    ∃ t b, BusyRun 1 s t ∧ JobRun J t ∧ t.wrap = stepRsp s.cfg b s.wrap := by
  have hq := h.quiet_but_reads
  obtain ⟨_, r, hr, _, _, hb⟩ := h.inv.answer hp
  have hne : s.inflight ≠ [] := by simp [hr]
  have he : nextEvent s = .respond := nextEvent_answers hq.schedule_empty hq.core1_inactive hq.core1a_inactive hne
  have hx := respondOldest_absorbs (s := s.begin) hp hr hb
  have hs := (hq.step_answers hne).trans hx
  exact ⟨_, _, .single h.inv.busy hs,
    ⟨h.quiet, h.inv.of_respond hs (he ▸ trivial) hx,
      onlyJobRan_step h.quiet.schedule_empty h.frame (respondOldest_writes hx)⟩, rfl⟩

end

/-! ## The stages of a job -/

/-- A running job in `PHASE = p` with `IDX = i`, `CNT = c` and `wait` cycles left of the selected core's
multiplication. -/
structure JobAt (J : StartedJob) (p : Phase) (i c wait : Nat) (s : State) : Prop where
  run : JobRun J s
  phase_eq : s.wrap.phase = p
  idx_eq : s.wrap.idx = i
  cnt_eq : s.wrap.cnt = c
  wait_eq : s.wrap.selected.wait = wait

section
variable {J : StartedJob} {i c w : Nat} {s : State}

/-- A cycle of the selected core's multiplication (log 8). -/
theorem JobAt.cycle (h : JobAt J .byte i c (w + 1) s) : ∃ t, BusyRun 1 s t ∧ JobAt J .byte i c w t := by
  have hx : sequencerEdge s.begin = _ := sequencerEdge_waits (by simp [h.wait_eq])
  obtain ⟨hr, hrun⟩ := h.run.edge (by simp [h.phase_eq]) hx (by simp [h.phase_eq])
  exact ⟨_, hr, hrun, by simp [h.phase_eq], by simp [h.idx_eq], by simp [h.cnt_eq],
    by simp [WrapperRegs.selected_setCore, coreWait_of_wait h.wait_eq]⟩

theorem JobAt.cycles (h : JobAt J .byte i c w s) : ∃ t, BusyRun w s t ∧ JobAt J .byte i c 0 t := by
  induction w generalizing s with
  | zero => exact ⟨s, .refl s, h⟩
  | succ w ih =>
    obtain ⟨t, hst, ht⟩ := h.cycle
    obtain ⟨u, htu, hu⟩ := ih ht
    exact ⟨u, Nat.add_comm w 1 ▸ hst.trans htu, hu⟩

/-- Step BYTE-read (R177). -/
theorem JobAt.read (h : JobAt J .byte i c 0 s) (hi : i < J.msg.length) :
    ∃ t, BusyRun 1 s t ∧ JobAt J .rsp i c 0 t := by
  have hne : s.wrap.idx ≠ s.wrap.len := by
    rw [h.idx_eq, h.run.inv.len_eq]
    exact hi.ne
  have hx := (sequencerEdge_byteRead (s := s.begin) h.wait_eq h.phase_eq hne).trans
    (stepByteRead_valid (h.run.inv.memAddr_valid h.phase_eq hne))
  obtain ⟨hr, hrun⟩ := h.run.edge (by simp [h.phase_eq]) hx nofun
  exact ⟨_, hr, hrun, rfl, h.idx_eq, h.cnt_eq, h.wait_eq⟩

/-- Step RSP (R178). -/
theorem JobAt.absorb (h : JobAt J .rsp i c 0 s) :
    ∃ t, BusyRun 1 s t ∧ JobAt J .byte (i + 1) c (J.start.cfg.mixLatency - 1) t := by
  obtain ⟨t, b, hr, hrun, hw⟩ := h.run.respond h.phase_eq
  obtain ⟨hlt, -⟩ := h.run.inv.one_read h.phase_eq
  have hidx : (stepRsp s.cfg b s.wrap).idx = s.wrap.idx + 1 :=
    stepRsp_idx (Nat.lt_of_le_of_lt hlt h.run.inv.len_fits)
  exact ⟨t, hr, hrun, by simp [hw], by simp [hw, hidx, h.idx_eq], by simp [hw, h.cnt_eq],
    by simp [hw, WrapperRegs.selected, stepRsp_core, h.run.cfg_eq]⟩

/-- One byte: the read, the answer, and the rest of the multiplication. -/
theorem JobAt.byte (h : JobAt J .byte i c 0 s) (hL : 0 < J.start.cfg.mixLatency) (hi : i < J.msg.length) :
    ∃ t, BusyRun (1 + J.start.cfg.mixLatency) s t ∧ JobAt J .byte (i + 1) c 0 t := by
  obtain ⟨t₁, h₁, hread⟩ := h.read hi
  obtain ⟨t₂, h₂, habsorb⟩ := hread.absorb
  obtain ⟨t₃, h₃, hready⟩ := habsorb.cycles
  refine ⟨t₃, ?_, hready⟩
  rw [show 1 + J.start.cfg.mixLatency = 1 + (1 + (J.start.cfg.mixLatency - 1)) by omega]
  exact h₁.trans (h₂.trans h₃)

/-- The rest of a pass up to its last byte. -/
theorem JobAt.bytes {d : Nat} (h : JobAt J .byte i c 0 s) (hL : 0 < J.start.cfg.mixLatency)
    (hd : i + d = J.msg.length) :
    ∃ t, BusyRun (d * (1 + J.start.cfg.mixLatency)) s t ∧ JobAt J .byte J.msg.length c 0 t := by
  induction d generalizing i s with
  | zero => exact ⟨s, by simpa using .refl s, hd ▸ h⟩
  | succ d ih =>
    obtain ⟨t, hst, ht⟩ := h.byte hL (by omega)
    obtain ⟨u, htu, hu⟩ := ih ht (by omega)
    refine ⟨u, ?_, hu⟩
    rw [Nat.succ_mul, Nat.add_comm]
    exact hst.trans htu

/-- Step CHECK with a pass left (R175). -/
theorem JobAt.seed (h : JobAt J .check i (c + 1) 0 s) : ∃ t, BusyRun 1 s t ∧ JobAt J .byte 0 (c + 1) 0 t := by
  obtain ⟨hphase, hidx, _, hcore, _⟩ := stepCheck_seeds (w := s.wrap) (by simp [h.cnt_eq])
  have hx := sequencerEdge_check (s := s.begin) h.wait_eq h.phase_eq
  obtain ⟨hr, hrun⟩ := h.run.edge (by simp [h.phase_eq]) hx (by simp [hphase])
  exact ⟨_, hr, hrun, hphase, hidx, by simp [h.cnt_eq],
    by simpa [WrapperRegs.selected, hcore] using h.wait_eq⟩

/-- Step BYTE at the end of a pass (R176). -/
theorem JobAt.chain (h : JobAt J .byte J.msg.length (c + 1) 0 s) :
    ∃ t, BusyRun 1 s t ∧ JobAt J .check J.msg.length c 0 t ∧
      (t.wrap.core J.v).hashval = repeatOf J.v (J.n - c) J.msg J.seed := by
  have hi : s.wrap.idx = s.wrap.len := h.idx_eq.trans h.run.inv.len_eq.symm
  have hx := sequencerEdge_endOfPass (s := s.begin) h.wait_eq h.phase_eq hi
  obtain ⟨hcnt, hdigest⟩ := h.run.inv.digest_of_pass h.phase_eq hi
  have hdec := stepEndOfPass_cnt hcnt (h.run.inv.cnt_le.trans_lt h.run.inv.n_fits)
  obtain ⟨hr, hrun⟩ := h.run.edge (by simp [h.phase_eq]) hx nofun
  refine ⟨_, hr, ⟨hrun, rfl, h.idx_eq, ?_, h.wait_eq⟩, ?_⟩
  · exact hdec.trans (by simp [h.cnt_eq])
  · simpa [h.cnt_eq] using hdigest

/-- One pass, from step CHECK to the next. -/
theorem JobAt.pass (h : JobAt J .check i (c + 1) 0 s) (hL : 0 < J.start.cfg.mixLatency) :
    ∃ t, BusyRun (2 + J.msg.length * (1 + J.start.cfg.mixLatency)) s t ∧ JobAt J .check J.msg.length c 0 t ∧
      (t.wrap.core J.v).hashval = repeatOf J.v (J.n - c) J.msg J.seed := by
  obtain ⟨t₁, h₁, hseed⟩ := h.seed
  obtain ⟨t₂, h₂, hbytes⟩ := hseed.bytes hL (Nat.zero_add _)
  obtain ⟨t₃, h₃, hchain⟩ := hbytes.chain
  refine ⟨t₃, ?_, hchain⟩
  rw [show 2 + J.msg.length * (1 + J.start.cfg.mixLatency) =
    1 + (J.msg.length * (1 + J.start.cfg.mixLatency) + 1) by omega]
  exact h₁.trans (h₂.trans h₃)

/-- All passes left. -/
theorem JobAt.passes (h : JobAt J .check i c 0 s) (hL : 0 < J.start.cfg.mixLatency) :
    ∃ t, BusyRun (c * (2 + J.msg.length * (1 + J.start.cfg.mixLatency))) s t ∧
      JobAt J .check (if c = 0 then i else J.msg.length) 0 0 t ∧
      (t.wrap.core J.v).hashval =
        if c = 0 then (s.wrap.core J.v).hashval else repeatOf J.v J.n J.msg J.seed := by
  induction c generalizing i s with
  | zero => exact ⟨s, by simpa using .refl s, h, rfl⟩
  | succ c ih =>
    obtain ⟨t, hst, ht, hdigest⟩ := h.pass hL
    obtain ⟨u, htu, hu, hlast⟩ := ih ht
    refine ⟨u, ?_, by simpa using hu, ?_⟩
    · rw [Nat.succ_mul, Nat.add_comm]
      exact hst.trans htu
    · by_cases hc : c = 0
      · subst hc
        simpa [hdigest] using hlast
      · simpa [hc] using hlast

/-- Step CHECK with no pass left (R175). -/
theorem JobAt.finish (h : JobAt J .check i 0 0 s) :
    ∃ t, BusyRun 1 s t ∧ onlyJobRan J.start t ∧ t.inflight = [] ∧
      t.wrap = { s.wrap with done := true, phase := .idle } := by
  have hp : s.wrap.phase ≠ .rsp := by simp [h.phase_eq]
  have hx := sequencerEdge_check (s := s.begin) h.wait_eq h.phase_eq
  exact ⟨_, .single h.run.inv.busy ((h.run.step_eq_edge hp).trans hx),
    onlyJobRan_step h.run.quiet.schedule_empty h.run.frame (sequencerEdge_writes hx), h.run.inv.no_read hp,
    stepCheck_ends h.cnt_eq⟩

end

/-! ## A job from its START event to its end -/

/-- The job that a word on the port of the idle wrapper of `s` starts (R171 to R174). -/
def startedJob (v : Variant) (dseed : Bool) (n base : Nat) (msg : List Byte) (seed : Word) (s : State) :
    StartedJob where
  v := v
  n := n
  base := base
  msg := msg
  seed := jobSeed v dseed seed
  other := s.wrap.core (otherVariant v)
  start := (s.begin.setWrap (startRegs s.cfg v (jobSeed v dseed seed) n base msg.length s.wrap)).setPort .wrapper none

theorem Quiet.starts_job {v : Variant} {dseed : Bool} {n base : Nat} {msg : List Byte} {seed : Word} {s : State}
    (h : Quiet s) (hf : jobFits s.cfg n base msg.length = true) (hp : s.wrap.phase = .idle)
    (h1 : s.wrap.c1.wait = 0) (h1a : s.wrap.c1a.wait = 0)
    (hj : s.job = some (encode s.cfg (runInstr v dseed n base msg.length seed)))
    (hm : 0 < n → holdsMessage s.cfg s.mem base msg) :
    step s = .next (startedJob v dseed n base msg seed s).start ∧
      JobAt (startedJob v dseed n base msg seed s) .check 0 n 0 (startedJob v dseed n base msg seed s).start := by
  have hstart := h.step_accepts hp hj (decode_encode_runInstr v dseed seed hf)
  rw [exec_runInstr, acceptJob_ready (s := s.begin) hp] at hstart
  obtain ⟨hcnt, -, -⟩ := startRegs_of_fits hf v (jobSeed v dseed seed) s.wrap
  exact ⟨hstart, ⟨(h.begin.setWrap _).setJob none, JobInv.of_start (s := s.begin) hf h.no_reads hm, onlyJobRan_refl _⟩,
    rfl, rfl, hcnt, startRegs_selected_ready h1 h1a ..⟩

/-- A started job ends after its steps with the registers that R188 says a finished job leaves. -/
theorem JobAt.completes {J : StartedJob} (h : JobAt J .check 0 J.n 0 J.start) (hL : 0 < J.start.cfg.mixLatency) :
    ∃ t, BusyRun (jobSteps J.start.cfg J.n J.msg.length) J.start t ∧ onlyJobRan J.start t ∧ t.inflight = [] ∧
      JobEnded J.v J.n J.msg J.seed t.wrap ∧
      t.wrap.var = J.v ∧ t.wrap.base = J.base ∧ t.wrap.len = J.msg.length ∧
      t.wrap.idx = (if J.n = 0 then 0 else J.msg.length) ∧
      (t.wrap.core J.v).hashval = (if J.n = 0 then (J.start.wrap.core J.v).hashval else t.wrap.chain) ∧
      t.wrap.core (otherVariant J.v) = J.other := by
  obtain ⟨t₁, h₁, hlast, hdigest⟩ := h.passes hL
  obtain ⟨t, h₂, hframe, hread, hw⟩ := hlast.finish
  have hinv := hlast.run.inv
  have hchain : t₁.wrap.chain = repeatOf J.v J.n J.msg J.seed := by simpa [hlast.cnt_eq] using hinv.chain_eq
  refine ⟨t, h₁.trans h₂, hframe, hread, ?_⟩
  rw [hw]
  exact ⟨⟨rfl, rfl, hlast.cnt_eq, hchain⟩, hinv.var_eq, hinv.base_eq, hinv.len_eq, hlast.idx_eq,
    hchain ▸ hdigest, hinv.other_eq⟩

/-! ## The statement -/

/-- Settles O58: START, then the passes counted by `JobAt.passes`, then the step CHECK that ends the job. -/
theorem jobComputesRepeatedHash : Obligations.JobComputesRepeatedHash := by
  unfold Obligations.JobComputesRepeatedHash
  intro v dseed n base msg seed s hcfg hn hb hl hq hp h1 h1a hj hm
  have hf : jobFits s.cfg n base msg.length = true := by simp [jobFits, hn, hb, hl]
  have hL : 0 < s.cfg.mixLatency := by
    simp only [Config.wf, Bool.and_eq_true, decide_eq_true_eq] at hcfg
    exact hcfg.2
  obtain ⟨hstart, hjob⟩ := hq.starts_job hf hp h1 h1a hj hm
  obtain ⟨t, hrun, ⟨_, _, _, hframe⟩, hread, hend, hvar, hbase, hlen, hidx, hhash, hother⟩ := hjob.completes hL
  refine ⟨fun k hk hlt => ?_, t, ?_, hend.idle, hend.done, hend.chain_eq, hend.cnt_zero, hvar, hbase, hlen, hidx, ?_,
    hother, ?_⟩
  · obtain ⟨j, rfl⟩ := Nat.exists_eq_add_of_le' hk
    obtain ⟨u, hu, hbusy⟩ := hrun.busy_before (show j < jobSteps s.cfg n msg.length by omega)
    exact ⟨u, (core_run_next hstart).trans hu, hbusy⟩
  · rw [Nat.add_comm, core_run_next hstart]
    exact hrun.run_eq
  · simpa [startedJob] using hhash
  · refine ⟨?_, ?_, hread, ?_, fun a => ?_⟩ <;> rw [hframe] <;> rfl

end Sys2Proof.Machine

/-! # Chaining, and the equivalence of the byte sources: the proofs

The hash of a concatenation goes on from the hash of its first part, so a repetition is the hash of the copies written
one after another, and a command stream and a one-pass job over the same bytes compute the same hash. -/
namespace Sys2Proof.Machine

/-! ## Chaining (spec/44_properties.md R215, R216) -/

/-- Each further copy of the message is one more pass. -/
theorem repeatOf_eq_hashOf_repeatBytes (v : Variant) (n : Nat) (s : List Byte) (k : Word) :
    repeatOf v n s k = hashOf v (repeatBytes s n) k := by
  rw [repeatOf_eq_iterate]
  induction n generalizing k with
  | zero => exact (hashOf_nil v k).symm
  | succ n ih => rw [repeatBytes, hashOf_append, Function.iterate_succ_apply, ih]

/-! ## The statements -/

/-- Settles O12: by induction on the number of copies, for both variants at once; the two examples are evaluated. -/
theorem chainingIsConcatenation : Obligations.ChainingIsConcatenation := by
  unfold Obligations.ChainingIsConcatenation
  exact ⟨fun n s k => ⟨repeatOf_eq_hashOf_repeatBytes .fnv1 n s k, repeatOf_eq_hashOf_repeatBytes .fnv1a n s k⟩,
    by decide, by decide⟩

/-- Settles O13: the hash of a concatenation goes on from the hash of its first part. -/
theorem seedChainingConcatenates : Obligations.SeedChainingConcatenates := by
  unfold Obligations.SeedChainingConcatenates
  intro v s t k
  exact (hashOf_append v s t k).symm

/-- Settles O60: the job ends with one repetition of the message in `CHAIN`, which is the hash that the commands leave. -/
theorem memoryAndCommandsAgree : Obligations.MemoryAndCommandsAgree := by
  unfold Obligations.MemoryAndCommandsAgree
  intro v base msg seed s c hcfg hb hl hq hp h1 h1a hj hm
  have hn : 1 < 2 ^ s.cfg.cntW := by
    simp only [Config.wf, Bool.and_eq_true, decide_eq_true_eq] at hcfg
    exact Nat.one_lt_two_pow (by omega)
  obtain ⟨-, t, hrun, -, hdone, hchain, -⟩ :=
    jobComputesRepeatedHash v false 1 base msg seed s hcfg hn hb hl hq hp h1 h1a hj fun _ => hm
  obtain ⟨-, ⟨u, hu, hhash⟩, -⟩ := pseudoInstructionsHashText v msg seed c
  obtain ⟨-, hone, -⟩ := repetitionIdentities v msg seed
  refine ⟨t, u, hrun, hu, hdone, ?_⟩
  calc t.wrap.chain = repeatOf v 1 msg seed := hchain
    _ = hashOf v msg seed := hone
    _ = (standalone v u).hashval := hhash.symm

/-- Settles O34: the default-seed form of a core command or of a job loads the constant that the explicit form is
given. -/
theorem defaultSeedFormsEqualExplicit : Obligations.DefaultSeedFormsEqualExplicit := by
  unfold Obligations.DefaultSeedFormsEqualExplicit
  intro d seed n base len s
  exact ⟨rfl, rfl, rfl, rfl⟩

end Sys2Proof.Machine

/-! # Edges of different modules: the proofs

An edge of one module, with or without reset, is a function of that module, its port and the reads it has issued, of the
configuration and of the memory, and it writes the first three only. So a block of one state can be carried over to
another state with the same configuration and memory, and the edge carries over with it (R243). -/
namespace Sys2Proof.Machine

/-! ## One module carried over -/

/-- `s` with the module of a block, its port and, for the wrapper, the reads it has issued, as they are in `r`. -/
def State.withBlock (s : State) (b : Block) (r : State) : State :=
  match b with
  | .fnv1Core => { s with fnv1 := r.fnv1, cmd1 := r.cmd1 }
  | .fnv1aCore => { s with fnv1a := r.fnv1a, cmd1a := r.cmd1a }
  | .wrapper => { s with wrap := r.wrap, job := r.job, inflight := r.inflight }

@[simp] theorem State.withBlock_cfg (s : State) (b : Block) (r : State) : (s.withBlock b r).cfg = s.cfg := by
  cases b <;> rfl

@[simp] theorem State.withBlock_mem (s : State) (b : Block) (r : State) : (s.withBlock b r).mem = s.mem := by
  cases b <;> rfl

@[simp] theorem State.withBlock_self (s : State) (b : Block) : s.withBlock b s = s := by
  cases b <;> rfl

@[simp] theorem State.withBlock_port (s : State) (b : Block) (r : State) : (s.withBlock b r).port b = r.port b := by
  cases b <;> rfl

@[simp] theorem State.withBlock_ready (s : State) (b : Block) (r : State) : (s.withBlock b r).ready b = r.ready b := by
  cases b <;> rfl

@[simp] theorem State.withBlock_standalone (s : State) (v : Variant) (r : State) :
    standalone v (s.withBlock (coreBlock v) r) = standalone v r := by
  cases v <;> rfl

/-- Different modules share no state (R243). -/
theorem State.withBlock_comm {b c : Block} (h : b ≠ c) (s r q : State) :
    (s.withBlock b r).withBlock c q = (s.withBlock c q).withBlock b r := by
  cases b <;> cases c <;> simp [State.withBlock] at h ⊢

section CarriedOver
variable {b : Block} {i : Instr} {s t d : State}

/-! ## An edge carried over -/

/-- An accepted command reads and writes its own core only. -/
theorem exec_coreInstr_withBlock {v : Variant} {op : CoreOp} {data : Word} (hcfg : d.cfg = s.cfg)
    (hw : (standalone v s).wait = 0) (h : exec (coreInstr v op data) s = .next t) :
    exec (coreInstr v op data) (d.withBlock (coreBlock v) s) = .next (d.withBlock (coreBlock v) t) := by
  rw [exec_coreInstr_ready hw] at h
  cases h
  rw [exec_coreInstr_ready (by simpa using hw), State.withBlock_standalone, State.withBlock_cfg, hcfg]
  cases v <;> rfl

/-- A START event reads and writes the wrapper only. -/
theorem exec_runInstr_withBlock {v : Variant} {dseed : Bool} {n base len : Nat} {k : Word} (hcfg : d.cfg = s.cfg)
    (hp : s.wrap.phase = .idle) (h : exec (runInstr v dseed n base len k) s = .next t) :
    exec (runInstr v dseed n base len k) (d.withBlock .wrapper s) = .next (d.withBlock .wrapper t) := by
  rw [exec_runInstr, acceptJob_ready hp] at h
  cases h
  rw [exec_runInstr, acceptJob_ready (s := d.withBlock .wrapper s) hp, State.withBlock_cfg, hcfg]
  rfl

/-- An accepted instruction reads and writes its own block only. -/
theorem exec_withBlock (hcfg : d.cfg = s.cfg) (hb : i.block = b) (hr : s.ready b = true) (h : exec i s = .next t) :
    exec i (d.withBlock b s) = .next (d.withBlock b t) := by
  cases b with
  | fnv1Core =>
    obtain ⟨op, data, rfl⟩ := eq_coreInstr_of_block (v := .fnv1) hb
    exact exec_coreInstr_withBlock hcfg ((ready_coreBlock_iff .fnv1 s).mp hr) h
  | fnv1aCore =>
    obtain ⟨op, data, rfl⟩ := eq_coreInstr_of_block (v := .fnv1a) hb
    exact exec_coreInstr_withBlock hcfg ((ready_coreBlock_iff .fnv1a s).mp hr) h
  | wrapper =>
    obtain ⟨v, dseed, n, base, len, k, rfl⟩ := eq_runInstr_of_block hb
    exact exec_runInstr_withBlock hcfg (by simpa using hr) h

/-- The sequencer reads and writes the wrapper only, and reads the memory. -/
theorem sequencerEdge_withBlock (hcfg : d.cfg = s.cfg) (hmem : d.mem = s.mem) (hbusy : s.wrap.phase ≠ .idle)
    (h : sequencerEdge s = .next t) : sequencerEdge (d.withBlock .wrapper s) = .next (d.withBlock .wrapper t) := by
  have haddr : (d.withBlock .wrapper s).memAddr = s.memAddr := by
    rw [State.memAddr_eq, State.memAddr_eq, State.withBlock_cfg, hcfg]
    rfl
  obtain ⟨hw, rfl⟩ | ⟨hw, ⟨hp, _⟩ | ⟨hp, rfl⟩ | ⟨hp, hl, rfl⟩ | ⟨hp, hl, hv, rfl⟩ |
    ⟨hp, ht⟩⟩ := sequencerEdge_cases h
  · exact sequencerEdge_waits (s := d.withBlock .wrapper s) hw
  · exact absurd hp hbusy
  · exact sequencerEdge_check (s := d.withBlock .wrapper s) hw hp
  · rw [sequencerEdge_endOfPass (s := d.withBlock .wrapper s) hw hp hl, State.withBlock_cfg, hcfg]
    rfl
  · rw [sequencerEdge_byteRead (s := d.withBlock .wrapper s) hw hp hl,
      stepByteRead_valid (by rw [State.withBlock_mem, haddr, hmem, hv]), haddr]
    rfl
  · exact ht ▸ sequencerEdge_rsp (s := d.withBlock .wrapper s) hw hp

theorem busyEdge_withBlock (hcfg : d.cfg = s.cfg) (hmem : d.mem = s.mem) (hr : s.ready b = false)
    (h : busyEdge b s = .next t) : busyEdge b (d.withBlock b s) = .next (d.withBlock b t) := by
  cases b with
  | fnv1Core | fnv1aCore => cases h; rfl
  | wrapper => exact sequencerEdge_withBlock hcfg hmem (by simpa using hr) h

theorem runEdge_withBlock (hcfg : d.cfg = s.cfg) (hmem : d.mem = s.mem) (h : runEdge b s = .next t) :
    runEdge b (d.withBlock b s) = .next (d.withBlock b t) := by
  obtain ⟨hr, w, i, hw, hd, hx⟩ | ⟨hr, hw, rfl⟩ | ⟨hr, hx⟩ := runEdge_cases h
  · rw [runEdge_accepts (by simpa using hr) (by simpa using hw) (by simpa [hcfg] using hd)]
    exact exec_withBlock hcfg (decode_block hd) hr hx
  · exact runEdge_no_word (by simpa using hr) (by simpa using hw)
  · rw [runEdge_not_ready (by simpa using hr)]
    exact busyEdge_withBlock hcfg hmem hr hx

/-- An edge of a module, with or without reset, reads the module, the configuration and the memory, and writes the
module only. -/
theorem runEvent_edgeOf_withBlock {rst : Bool} (hcfg : d.cfg = s.cfg) (hmem : d.mem = s.mem)
    (h : runEvent (edgeOf rst b) s = .next t) :
    runEvent (edgeOf rst b) (d.withBlock b s) = .next (d.withBlock b t) := by
  cases rst with
  | false => exact runEdge_withBlock hcfg hmem h
  | true =>
    cases h
    cases b <;> rfl

/-- The frame of an edge: everything outside its module is unchanged. -/
theorem eq_withBlock_of_edge {rst : Bool} (h : runEvent (edgeOf rst b) s = .next t) : t = s.withBlock b t := by
  have hs := runEvent_edgeOf_withBlock rfl rfl h
  rw [State.withBlock_self, h] at hs
  exact Host.Outcome.next.inj hs

/-- An edge of one module happens in the same way after an edge of another. -/
theorem runEvent_edgeOf_after {c : Block} {rst rst' : Bool} {u : State} (hne : b ≠ c)
    (ht : runEvent (edgeOf rst b) s = .next t) (hu : runEvent (edgeOf rst' c) s = .next u) :
    runEvent (edgeOf rst' c) t = .next (t.withBlock c u) := by
  have hs : t.withBlock c s = t := by
    rw [eq_withBlock_of_edge ht, State.withBlock_comm hne, State.withBlock_self]
  have hcfg : t.cfg = s.cfg := by rw [eq_withBlock_of_edge ht, State.withBlock_cfg]
  have hmem : t.mem = s.mem := by rw [eq_withBlock_of_edge ht, State.withBlock_mem]
  simpa only [hs] using runEvent_edgeOf_withBlock hcfg hmem hu

end CarriedOver

/-! ## The statement -/

/-- Settles O56: each edge happens in the same way after the other, and the two modules can be put into the state in
either order. -/
theorem edgesOfModulesCommute : Obligations.EdgesOfModulesCommute := by
  unfold Obligations.EdgesOfModulesCommute
  intro b b' rst rst' s t u hne ht hu
  have hz : u.withBlock b t = t.withBlock b' u :=
    calc u.withBlock b t = (s.withBlock b' u).withBlock b t := by rw [← eq_withBlock_of_edge hu]
      _ = (s.withBlock b t).withBlock b' u := State.withBlock_comm hne.symm s u t
      _ = t.withBlock b' u := by rw [← eq_withBlock_of_edge ht]
  exact ⟨t.withBlock b' u, runEvent_edgeOf_after hne ht hu, hz ▸ runEvent_edgeOf_after hne.symm hu ht⟩

end Sys2Proof.Machine

/-! # The reset event: the proofs

A reset event writes the registers of its own block only, so the word on the port and the reads in flight outlive it, and
the block is ready afterwards (R260 to R262, R271). -/
namespace Sys2Proof.Machine

section
variable (b : Block) (s : State)

/-! ## What a reset event writes and leaves (R260, R261, R271) -/

@[simp] theorem resetBlock_wrapper_wrap : (resetBlock .wrapper s).wrap = wrapReset := rfl

@[simp] theorem resetBlock_cfg : (resetBlock b s).cfg = s.cfg := by
  cases b <;> rfl
@[simp] theorem resetBlock_mem : (resetBlock b s).mem = s.mem := by
  cases b <;> rfl
@[simp] theorem resetBlock_inflight : (resetBlock b s).inflight = s.inflight := by
  cases b <;> rfl

/-- No reset takes a word from a port: not from its own block's, and not from another's (R261). -/
theorem resetBlock_port (c : Block) : (resetBlock b s).port c = s.port c := by
  cases b <;> cases c <;> rfl

/-- The reset values do not depend on the state, so a second reset event changes nothing more (R260). -/
theorem runEvent_reset_again : runEvent (.reset b) (resetBlock b s) = .next (resetBlock b s) := by
  cases b <;> rfl

/-! ## The signals after a reset event (R22, R25, R29) -/

/-- A core after reset is ready as soon as `rst` is 0 (R261). -/
@[simp] theorem cmdReady_coreReset (rst : Bool) (init : Word) : cmdReady rst (coreReset init) = !rst := by
  simp [cmdReady, coreReset]

@[simp] theorem digestOf_coreReset (n : Nat) (init : Word) : digestOf false b n (coreReset init) = init :=
  digestOf_ready rfl b n

/-- The block that a reset event leaves accepts the next word (R261). -/
theorem resetBlock_ready : (resetBlock b s).ready b = true := by
  cases b <;> rfl

theorem resetBlock_wrapper_jobReady (rst : Bool) : (resetBlock .wrapper s).jobReady rst = !rst := by
  simp [State.jobReady, wrapReset]

/-- No read is requested in `PHASE = IDLE` (R51). -/
theorem resetBlock_wrapper_memReqValid (rst : Bool) : (resetBlock .wrapper s).memReqValid rst = false := by
  simp [State.memReqValid, wrapReset]

end

/-! ## The statements -/

/-- Settles O44: the reset event leaves the port, the reads and the memory, and the block that it leaves is ready, so the
next edge accepts the word. -/
theorem resetKeepsWordsAndReads : Obligations.ResetKeepsWordsAndReads := by
  unfold Obligations.ResetKeepsWordsAndReads
  intro b s t h
  cases h
  have hport : (resetBlock b s).port b = s.port b := resetBlock_port b s b
  have hready : (resetBlock b s).ready b = true := resetBlock_ready b s
  refine ⟨hport, hready, resetBlock_inflight b s, fun a => by rw [resetBlock_mem], fun w i hp hd => ?_⟩
  exact runEdge_accepts hready (hport.trans hp) (by rwa [resetBlock_cfg])

/-- Settles O42: the table of R29 and the signals of a reset block, for each module, and the second reset event is the
first. -/
theorem resetEventValues : Obligations.ResetEventValues := by
  unfold Obligations.ResetEventValues
  intro s
  refine ⟨⟨_, runEvent_reset _ s, ?fnv1⟩, ⟨_, runEvent_reset _ s, ?fnv1a⟩, ⟨_, runEvent_reset _ s, ?wrapper⟩⟩
  case fnv1 =>
    exact ⟨rfl, cmdReady_coreReset false _, digestOf_coreReset _ _ _, cmdReady_coreReset true _,
      runEvent_reset_again _ s⟩
  case fnv1a =>
    exact ⟨rfl, cmdReady_coreReset false _, digestOf_coreReset _ _ _, cmdReady_coreReset true _,
      runEvent_reset_again _ s⟩
  case wrapper =>
    refine ⟨rfl, rfl, rfl, rfl, rfl, rfl, rfl, rfl, rfl, rfl, ?_⟩
    exact ⟨resetBlock_wrapper_jobReady s false, resetBlock_wrapper_jobReady s true, rfl, rfl,
      resetBlock_wrapper_memReqValid s false, rfl, runEvent_reset_again _ s⟩

end Sys2Proof.Machine
